-- ==== Sys2Proof/Word.lean ====
section
/-! DEFINITION. The words and byte groups of the core (00_scope.md rules R7, R9, R11) and their plainest arithmetic. -/

namespace Sys2Proof

/-- An 8-bit unsigned value (R9). A character of the transposition cipher is one byte (D16). -/
abbrev Byte := BitVec 8

/-- A 32-bit unsigned value (R9): every host-visible register is one word wide (R8). -/
abbrev Word := BitVec 32

/-- A flow: a 4-byte vector, byte i in `b<i>` (R9, R12). A round key has the same shape. -/
structure Flow where
  b0 : Byte
  b1 : Byte
  b2 : Byte
  b3 : Byte
deriving DecidableEq, Repr

/-- A block as its four flows f1..f4 (R11, R12). -/
structure Block where
  f1 : Flow
  f2 : Flow
  f3 : Flow
  f4 : Flow
deriving DecidableEq, Repr

/-- ROUNDS = RK_COUNT = 16 (R7). -/
abbrev rounds : Nat := 16

/-- BLOCK_BYTES = KEY_BYTES = 16 (R7). -/
abbrev blockBytes : Nat := 16

/-- The pad character `|`, byte 0x7C (R7, D16). -/
def pad : Byte := 0x7C#8

/-- `ceil_div(a, b)` for b ≥ 1 (R9). -/
def ceilDiv (a b : Nat) : Nat := (a + b - 1) / b

end Sys2Proof
end

