-- ==== Sys2Proof/Config.lean ====
section
/-! DEFINITION. What an implementation fixes (00_scope.md rule R6) and the free values, which no rule fixes
(93_implementation_defined.md U2, U3, U4, U6). A free value is an opaque constant with no body. -/

namespace Sys2Proof

/-- KSCHED_ROT, the reading of "cyclic-right-shift" (R6, R101). -/
inductive KschedRot where
  | bytePosRight
  | bytePosLeft
  | bitPerByteRight
deriving DecidableEq, Repr

/-- The parameters of rule R6. They are fixed for one machine: no step writes them. -/
structure Params where
  base : Nat
  maxlen : Nat
  nmax : Nat
  rot : KschedRot
deriving DecidableEq, Repr

/-- The legal values of rule R6. -/
abbrev Params.Legal (p : Params) : Prop :=
  p.base % 0x40000 = 0 ∧ (16 ≤ p.maxlen ∧ p.maxlen ≤ 65536 ∧ p.maxlen % 16 = 0) ∧ (1 ≤ p.nmax ∧ p.nmax ≤ 1024)

/-- Which multiple of 0x40000 the platform gives BASE: OPEN (R6, D3; log 3). -/
opaque Config.baseIndex : Nat

/-- Which legal MAXLEN the buffers have: OPEN (R6, D20; log 3). -/
opaque Config.maxlenIndex : Nat

/-- Which legal NMAX the key tables have: OPEN (R6, D15; log 3). -/
opaque Config.nmaxIndex : Nat

/-- This hardware's parameters: any legal BASE, MAXLEN and NMAX, and KSCHED_ROT = BYTE_POS_RIGHT (R6, D7). -/
def Config.params : Params where
  base := 0x40000 * Config.baseIndex
  maxlen := 16 * (Config.maxlenIndex % 4096) + 16
  nmax := Config.nmaxIndex % 1024 + 1
  rot := .bytePosRight

/-- Byte `k` of draw `d`: what an unspecified byte reads as (U4, U6; logs 4, 5). -/
opaque Config.freeByte : (d k : Nat) → Byte

/-- Word `k` of draw `d`: what an unspecified word reads as (U2, U3, U6; logs 4, 6, 9). -/
opaque Config.freeWord : (d k : Nat) → Word

end Sys2Proof
end

