-- ==== Sys2Proof/Syntax.lean ====
section
/-! DEFINITION. The 14 commands of 30_encoding.md rule R73 (spec/opcode_table.json), one constructor a row. -/

namespace Sys2Proof

/-- A command. `r` is the field RIDX and `notrim` the field NOTRIM of rule R70. -/
inductive Instr where
  /-- `NOP` (R160) -/
  | nop
  /-- `KSCHED` (R100) -/
  | ksched
  /-- `RENC r` (R112) -/
  | renc (r : Nat)
  /-- `RDEC r` (R113) -/
  | rdec (r : Nat)
  /-- `BENC` (R114) -/
  | benc
  /-- `BDEC` (R115) -/
  | bdec
  /-- `MENC` (R120) -/
  | menc
  /-- `MDEC`, and `MDEC.NT` when `notrim` (R121) -/
  | mdec (notrim : Bool)
  /-- `TCFG` (R140) -/
  | tcfg
  /-- `TENC` (R142) -/
  | tenc
  /-- `TDEC`, and `TDEC.NT` when `notrim` (R143) -/
  | tdec (notrim : Bool)
  /-- `TRIMZ` (R122) -/
  | trimz
  /-- `TRIMP` (R144) -/
  | trimp
  /-- `MOVE` (R161) -/
  | move
deriving DecidableEq, Repr

end Sys2Proof
end

