-- ==== Sys2Proof/Machine/State.lean ====
section
/-! DEFINITION. The state of the core, of its Host and of the schedule (10_state.md), the reasons a step can stop, and the
state after reset (10_state.md rule R43). Everything is plain data. -/

namespace Sys2Proof.Machine

/-! ## Parts of the state -/

/-- The fields of STATUS (R24). The reserved bits have no storage: they read 0. -/
structure Status where
  busy : Bool
  done : Bool
  err : Bool
  errcode : BitVec 4
  rkValid : Bool
  tpValid : Bool
deriving DecidableEq, Repr

/-- The engine's errors (R202). A failing command records one in STATUS and ERRINFO and the machine goes on. -/
inductive ErrorKind where
  | invalidKeyLength
  | invalidCiphertextLength
  | keyLengthMismatch
  | noKeySchedule
  | noPermutationKeys
  | invalidPermutationKey
  | illegalCommand
  | lengthOverflow
deriving DecidableEq, Repr

/-- `raise E(info)` (R10, R201). -/
structure Raised where
  error : ErrorKind
  info : Word
deriving DecidableEq, Repr

/-- A byte buffer (SRC, DST): the bytes written since draw `draw` was taken, addresses strictly rising. A byte that is
not listed reads as byte `k` of that draw (R36, R37; logs 4, 5). -/
structure Memory where
  cells : List Host.Cell
  draw : Nat
deriving DecidableEq, Repr

/-- A table of words (FK, SK, FKI, SKI): as `Memory`, with words (R34, R35, R38; log 4). -/
structure Table where
  cells : List (Nat × Word)
  draw : Nat
deriving DecidableEq, Repr

/-- Who moves: the Host, the Engine (R20), or the platform asserting reset (R230). -/
inductive Agent where
  | host
  | engine
  | platformReset
deriving DecidableEq, Repr

/-- A host bus transaction at a bus address with a width in bits (R51, R53). -/
inductive Transaction where
  | read (addr width : Nat)
  | write (addr width : Nat) (v : Word)
deriving DecidableEq, Repr

/-- One line of a host program (R77), offsets relative to BASE. `ISSUE`, `DO` and `WRBYTES` expand into these
(Machine/HostAgent.lean); `raw` is any transaction at a bus address, also one that rule R53 excludes. -/
inductive HostOp where
  | wr (off : Nat) (v : Word)
  | rd (off : Nat)
  | wait
  | check (off : Nat) (v : Word)
  | raw (t : Transaction)
deriving DecidableEq, Repr

/-! ## The state -/

/-- Everything the spec gives the machine (10_state.md), then the model's own fields. -/
structure State where
  /-- BASE, MAXLEN, NMAX, KSCHED_ROT (R6): fixed for a machine -/
  params : Params
  /-- CMD (R23) -/
  cmd : Word
  /-- STATUS (R24) -/
  status : Status
  /-- ERRINFO (R25) -/
  errinfo : Word
  /-- KEY_LEN (R26) -/
  keyLen : Word
  /-- TP_N (R27) -/
  tpN : Word
  /-- TP_SKLEN (R28) -/
  tpSkLen : Word
  /-- SRC_LEN (R29) -/
  srcLen : Word
  /-- DST_LEN (R30) -/
  dstLen : Word
  /-- KEY0..KEY3 (R31) -/
  key : Vector Word 4
  /-- FLOW0..FLOW3 (R32) -/
  flow : Vector Word 4
  /-- RK0..RK15 (R33) -/
  rk : Vector Word 16
  /-- the draw that a host read of RK sees while RK_VALID = 0 (U3; log 6) -/
  rkDraw : Nat
  /-- FK (R34) -/
  fk : Table
  /-- SK (R35) -/
  sk : Table
  /-- NI, hidden (R38) -/
  ni : Word
  /-- FKI, hidden (R38) -/
  fki : Table
  /-- SKI, hidden (R38) -/
  ski : Table
  /-- SRC (R36) -/
  src : Memory
  /-- DST (R37) -/
  dst : Memory
  /-- the model's own: how many draws of free values have been taken (log 8) -/
  drawn : Nat
  /-- the model's own: the ERRCODE of every completion, newest first (R207, D22; log 11) -/
  history : List (BitVec 4)
  /-- the model's own: who moves next (R61; log 2) -/
  sched : List Agent
  /-- the Host's remaining program (R77; log 10) -/
  hostProg : List HostOp
  /-- the Host's variable t, its last value read (R77; log 10) -/
  hostVar : Word
deriving DecidableEq, Repr

/-! ## Why a step stops -/

/-- The faults. No instruction raises one. -/
inductive Fault where
  /-- the Host's own `assert` in a CHECK line found another value (R77). Raised by the Host's turn. Safe: a run that fails
  its own check has no further steps. -/
  | assertFailed
deriving DecidableEq, Repr

/-- The refusals. No instruction raises one. -/
inductive Refusal where
  /-- an instruction without a meaning; no arm of exec answers it. Safe. -/
  | notModelled (mnemonic : String)
  /-- a transaction that is not 32 bits wide or whose offset is not a multiple of 4: "A model refuses such a transaction"
  (R53, U1). Raised by the Host's turn. Safe (log 13). -/
  | unsupportedTransaction
  /-- an address that the core does not decode: what answers there is the platform's business (R50, U1). Raised by the
  Host's turn. Safe (log 13). -/
  | outsideWindow
deriving DecidableEq, Repr

/-! ## Reset -/

/-- STATUS after reset: idle, no error, no key material (R43). -/
def Status.reset : Status := ⟨false, false, false, 0#4, false, false⟩

/-- The state right after reset (R43) of a machine with parameters `p`, where the unspecified contents are the seven
draws from number `d` on (logs 4, 6, 8). The stored values of RK and NI are never visible (logs 6, 7). -/
def State.afterReset (p : Params) (d : Nat) : State where
  params := p
  cmd := 0#32
  status := Status.reset
  errinfo := 0#32
  keyLen := 0#32
  tpN := 0#32
  tpSkLen := 0#32
  srcLen := 0#32
  dstLen := 0#32
  key := Vector.replicate 4 0#32
  flow := Vector.replicate 4 0#32
  rk := Vector.replicate 16 0#32
  rkDraw := d + 6
  fk := ⟨[], d + 2⟩
  sk := ⟨[], d + 3⟩
  ni := 0#32
  fki := ⟨[], d + 4⟩
  ski := ⟨[], d + 5⟩
  src := ⟨[], d⟩
  dst := ⟨[], d + 1⟩
  drawn := d + 7
  history := []
  sched := []
  hostProg := []
  hostVar := 0#32

/-- This hardware right after reset, with nothing placed: no host program, no schedule (R43, R230; log 1). -/
def State.reset : State := State.afterReset Config.params 0

end Sys2Proof.Machine
end

