-- ==== Sys2Proof/Machine/Flags.lean ====
section
/-! DEFINITION. The flags of the core: the fields of STATUS, what sets and clears each (10_state.md rules R24, R39, R41),
the error codes (60_exceptions.md rule R202), and STATUS as the host reads it. -/

namespace Sys2Proof.Machine

/-- `code(E)` (R202). -/
def ErrorKind.code : ErrorKind → BitVec 4
  | .invalidKeyLength => 1#4
  | .invalidCiphertextLength => 2#4
  | .keyLengthMismatch => 3#4
  | .noKeySchedule => 4#4
  | .noPermutationKeys => 5#4
  | .invalidPermutationKey => 6#4
  | .illegalCommand => 7#4
  | .lengthOverflow => 8#4

/-- Issue: BUSY set, DONE, ERR and ERRCODE cleared, the valid bits unchanged (R200). -/
def Status.issued (t : Status) : Status := { t with busy := true, done := false, err := false, errcode := 0#4 }

/-- Complete without an error: BUSY cleared, DONE set; "ERR, ERRCODE and ERRINFO stay 0" (R201). -/
def Status.completed (t : Status) : Status := { t with busy := false, done := true }

/-- Complete with error E: BUSY cleared, DONE and ERR set, ERRCODE the code of E (R201). -/
def Status.failed (t : Status) (e : ErrorKind) : Status :=
  { t with busy := false, done := true, err := true, errcode := e.code }

/-- A successful KSCHED (R100). -/
def Status.withKeySchedule (t : Status) : Status := { t with rkValid := true }

/-- A successful TCFG (R140). -/
def Status.withPermutationKeys (t : Status) : Status := { t with tpValid := true }

/-- One bit at place `n` of a word. -/
def flagBit (b : Bool) (n : Nat) : Word := if b then 1#32 <<< n else 0#32

/-- STATUS as a word: BUSY 0, DONE 1, ERR 2, ERRCODE 11:8, RK_VALID 16, TP_VALID 17, every other bit 0 (R24). -/
def Status.toWord (t : Status) : Word :=
  flagBit t.busy 0 ||| flagBit t.done 1 ||| flagBit t.err 2 ||| (t.errcode.setWidth 32 <<< 8)
    ||| flagBit t.rkValid 16 ||| flagBit t.tpValid 17

end Sys2Proof.Machine
end

