-- ==== Sys2Proof/Machine/Operands.lean ====
section
/-! DEFINITION. Operands: bytes in words (00_scope.md rule R9, 20_memory.md rule R57), blocks and flows (R11), and the
operands each command reads (10_state.md rules R31 to R38, 30_encoding.md rule R72). -/

namespace Sys2Proof.Machine

/-! ## Lanes, words and blocks -/

/-- Lane `i` of a flow, i = 0..3. -/
def lane (f : Flow) (i : Nat) : Byte :=
  match i with
  | 0 => f.b0
  | 1 => f.b1
  | 2 => f.b2
  | _ => f.b3

/-- The flow whose lane `i` is `g i`, i = 0..3. -/
def ofLanes (g : Nat → Byte) : Flow := ⟨g 0, g 1, g 2, g 3⟩

/-- `pack(f) = {f[3], f[2], f[1], f[0]}` (R9). -/
def pack (f : Flow) : Word := f.b3 ++ f.b2 ++ f.b1 ++ f.b0

/-- `unpack(w)[i] = w[8i+7:8i]` (R9). -/
def unpack (w : Word) : Flow := ofLanes fun i => w.extractLsb' (8 * i) 8

/-- `partition(b)`: flow p, lane i is byte 4(p-1) + i of the block (R11). -/
def partition (b : Nat → Byte) : Block :=
  ⟨ofLanes fun i => b i, ofLanes fun i => b (4 + i), ofLanes fun i => b (8 + i), ofLanes fun i => b (12 + i)⟩

/-- The four bytes of a flow in lane order. -/
def flowBytes (f : Flow) : List Byte := [f.b0, f.b1, f.b2, f.b3]

/-- `flatten(f1, f2, f3, f4)`: the 16 bytes in flow order (R11). -/
def flatten (b : Block) : List Byte := flowBytes b.f1 ++ flowBytes b.f2 ++ flowBytes b.f3 ++ flowBytes b.f4

/-- Byte `k` of a byte string; a position past its end reads 0 and no command uses it (log 16). -/
def byteAt (bs : List Byte) (k : Nat) : Byte := bs.getD k 0#8

/-! ## Entries of buffers and tables -/

/-- The entry listed for key `k`, if any. -/
def findCell {α : Type} : List (Nat × α) → Nat → Option α
  | [], _ => none
  | c :: rest, k => if c.1 = k then some c.2 else findCell rest k

/-- Byte `k` of a buffer: the byte last written, else byte `k` of the buffer's draw. This is the ONE definition of what
an unlisted byte reads as (U4, U6; logs 4, 5). -/
def Memory.read (m : Memory) (k : Nat) : Byte := (findCell m.cells k).getD (Config.freeByte m.draw k)

/-- Word `j` of a table: the word last written, else word `j` of the table's draw (U6; log 4). -/
def Table.read (t : Table) (j : Nat) : Word := (findCell t.cells j).getD (Config.freeWord t.draw j)

/-- `MemRead(space, k, n)`: the bytes k..k+n-1 (R10). -/
def Memory.readRange (m : Memory) (k n : Nat) : List Byte := (List.range n).map fun i => m.read (k + i)

/-- The entries 0..n-1 of a table. -/
def Table.readRange (t : Table) (n : Nat) : List Word := (List.range n).map t.read

/-! ## What the commands read -/

/-- Key byte `n` = 4w + b is lane b of KEYw (R31). -/
def State.keyByte (s : State) (n : Nat) : Byte := lane (unpack (s.key[n / 4 % 4]'(by omega))) (n % 4)

/-- RK[r] (R33). `r` is a round index 0..15; another value selects no round key and stands for r mod 16 (log 14). -/
def State.roundKey (s : State) (r : Nat) : Flow := unpack (s.rk[r % 16]'(by omega))

/-- The block in FLOW0..FLOW3: FLOW[p-1] holds flow p (R11, R32). -/
def State.flowBlock (s : State) : Block := ⟨unpack s.flow[0], unpack s.flow[1], unpack s.flow[2], unpack s.flow[3]⟩

/-- The four FLOW words that hold a block (R32). -/
def packBlock (b : Block) : Vector Word 4 := #v[pack b.f1, pack b.f2, pack b.f3, pack b.f4]

/-- L = SRC_LEN as a natural number (R9, R29). -/
def State.srcBytes (s : State) : Nat := s.srcLen.toNat

/-- N = NI, the latched keysSize (R38). -/
def State.keysSize (s : State) : Nat := s.ni.toNat

/-- FKI[j] - 1, the destination column of column j (R141). -/
def State.column (s : State) (j : Nat) : Nat := (s.fki.read j).toNat - 1

/-- SKI[a] - 1, the destination row of row a (R141). -/
def State.row (s : State) (a : Nat) : Nat := (s.ski.read a).toNat - 1

end Sys2Proof.Machine
end

