-- ==== Sys2Proof/Machine/Ops.lean ====
section
/-! DEFINITION. The named operations over memory and registers, shared by every command: writing buffers and tables,
issuing and completing a command, raising an error (60_exceptions.md rules R200 to R205: the core's whole exception
model; there is no trap and no return, R206, R207), writing a result, and reset. -/

namespace Sys2Proof.Machine

/-! ## Buffers and tables -/

/-- The canonical form of a listing: keys strictly rising, so no key twice. -/
abbrev CellsWf {α : Type} (cs : List (Nat × α)) : Prop := (cs.map Prod.fst).Pairwise (· < ·)

/-- Canonical form of a buffer. An unlisted byte has no written value, so no entry can repeat it. -/
abbrev Memory.wf (m : Memory) : Prop := CellsWf m.cells

/-- Canonical form of a table. -/
abbrev Table.wf (t : Table) : Prop := CellsWf t.cells

/-- Write one entry, keeping the keys rising. -/
def putCell {α : Type} : List (Nat × α) → Nat → α → List (Nat × α)
  | [], k, v => [(k, v)]
  | c :: rest, k, v =>
    if k < c.1 then (k, v) :: c :: rest
    else if k = c.1 then (k, v) :: rest
    else c :: putCell rest k v

/-- Write the entries k, k+1, ... -/
def putRange {α : Type} (cs : List (Nat × α)) (k : Nat) : List α → List (Nat × α)
  | [] => cs
  | v :: vs => putRange (putCell cs k v) (k + 1) vs

/-- The listing of the entries k, k+1, ... and nothing else. -/
def cellsFrom {α : Type} (k : Nat) : List α → List (Nat × α)
  | [] => []
  | v :: vs => (k, v) :: cellsFrom (k + 1) vs

/-- `MemWrite(space, k, n, v)` with n the length of `vs` (R10). -/
def Memory.writeRange (m : Memory) (k : Nat) (vs : List Byte) : Memory := { m with cells := putRange m.cells k vs }

/-- Write one entry of a table. -/
def Table.write (t : Table) (j : Nat) (v : Word) : Table := { t with cells := putCell t.cells j v }

/-- Write the entries 0, 1, ... of a table. -/
def Table.writeRange (t : Table) (vs : List Word) : Table := { t with cells := putRange t.cells 0 vs }

/-! ## Issue and complete -/

/-- A host write of `c` to CMD while BUSY = 0 (R200). -/
def State.issue (s : State) (c : Word) : State := { s with cmd := c, status := s.status.issued, errinfo := 0#32 }

/-- Completion without an error (R201); the completion's ERRCODE joins the model's history (R207, D22). -/
def State.complete (s : State) : State :=
  { s with status := s.status.completed, history := s.status.errcode :: s.history }

/-- TAKING AN EXCEPTION: `raise E(info)` ends the running command. It sets BUSY, DONE, ERR, ERRCODE and ERRINFO and
writes no other state of the core (R201, R203, R205). -/
def State.raise (s : State) (x : Raised) : State :=
  { s with status := s.status.failed x.error, errinfo := x.info, history := x.error.code :: s.history }

/-- Ends a complete step that started in `s`: the result state completes; an error discards every result and raises in
`s` (R201, R203, R205). -/
def State.finish (s : State) : Except Raised State → State
  | .ok t => t.complete
  | .error x => s.raise x

/-- A rule of a command: its result state, or the error it raises. -/
abbrev Rule := Except Raised State

/-- `raise E(info)` inside a rule (R10). -/
def fails (e : ErrorKind) (info : Word) : Rule := .error ⟨e, info⟩

/-- `if STATUS.RK_VALID == 0: raise NoKeySchedule(0)` (R112, R120, R204). -/
def State.needKeySchedule (s : State) (go : Rule) : Rule := if s.status.rkValid then go else fails .noKeySchedule 0#32

/-- `if STATUS.TP_VALID == 0: raise NoPermutationKeys(0)` (R142, R204). -/
def State.needPermutationKeys (s : State) (go : Rule) : Rule :=
  if s.status.tpValid then go else fails .noPermutationKeys 0#32

/-- `if L > MAXLEN: raise LengthOverflow(L)` with L = SRC_LEN (R120, R204). -/
def State.needSrcFits (s : State) (go : Rule) : Rule :=
  if s.params.maxlen < s.srcBytes then fails .lengthOverflow s.srcLen else go

/-- `if L % 16 != 0: raise InvalidCiphertextLength(L)` (R121, R122). -/
def State.needWholeBlocks (s : State) (go : Rule) : Rule :=
  if s.srcBytes % blockBytes = 0 then go else fails .invalidCiphertextLength s.srcLen

/-! ## Results -/

/-- `MemWrite(DST, 0, n, bytes)` and `x[DST_LEN] <- n`, with n the length of `bytes`. Every byte of DST at index ≥ n is
unspecified afterwards: it reads from a new draw (R37, U4; log 5). -/
def State.writeResult (s : State) (bytes : List Byte) : State :=
  { s with
    dst := ⟨cellsFrom 0 bytes, s.drawn⟩
    dstLen := BitVec.ofNat 32 bytes.length
    drawn := s.drawn + 1 }

/-- FLOW0..FLOW3 take the flows of a block (R32). -/
def State.withFlow (s : State) (b : Block) : State := { s with flow := packBlock b }

/-! ## Reset -/

/-- The platform asserts reset (R230): every piece of the core's state takes its value of R43, the unspecified contents
are new draws, and a pending command is abandoned. The parameters, the model's history and the Host and schedule, which
are not the core's, stay (log 15). -/
def State.platformReset (s : State) : State :=
  { State.afterReset s.params s.drawn with
    history := s.history
    sched := s.sched
    hostProg := s.hostProg
    hostVar := s.hostVar }

end Sys2Proof.Machine
end

