-- ==== Sys2Proof/Machine/Feistel.lean ====
section
/-! DEFINITION. The Feistel round engine: RENC, RDEC, BENC, BDEC (41_feistel_round.md). -/

namespace Sys2Proof.Machine

/-- `a ^ b` on 4-byte vectors: each lane on its own (R9, R119). -/
def xorFlow (a b : Flow) : Flow := ofLanes fun i => lane a i ^^^ lane b i

/-- `ENC_ROUND((f1, f2, f3, f4), k)` (R110). -/
def encRound (b : Block) (k : Flow) : Block :=
  let t := xorFlow b.f1 k
  ⟨xorFlow b.f2 t, xorFlow b.f3 t, xorFlow b.f4 t, b.f1⟩

/-- `DEC_ROUND((f1, f2, f3, f4), k)` (R111). -/
def decRound (b : Block) (k : Flow) : Block :=
  let t := xorFlow b.f4 k
  ⟨b.f4, xorFlow b.f1 t, xorFlow b.f2 t, xorFlow b.f3 t⟩

/-- 16 rounds in the order r = 0..15 with round keys `rk r` (R103, R114). -/
def encBlock (rk : Nat → Flow) (b : Block) : Block := (List.range rounds).foldl (fun f r => encRound f (rk r)) b

/-- 16 reverse rounds in the order r = 15..0 (R103, R115). -/
def decBlock (rk : Nat → Flow) (b : Block) : Block :=
  (List.range rounds).reverse.foldl (fun f r => decRound f (rk r)) b

/-- `RENC r` (R112). -/
def execRenc (r : Nat) (s : State) : Host.Outcome State Fault Refusal :=
  .next (s.finish (s.needKeySchedule (.ok (s.withFlow (encRound s.flowBlock (s.roundKey r))))))

/-- `RDEC r` (R113). -/
def execRdec (r : Nat) (s : State) : Host.Outcome State Fault Refusal :=
  .next (s.finish (s.needKeySchedule (.ok (s.withFlow (decRound s.flowBlock (s.roundKey r))))))

/-- `BENC` (R114). -/
def execBenc (s : State) : Host.Outcome State Fault Refusal :=
  .next (s.finish (s.needKeySchedule (.ok (s.withFlow (encBlock s.roundKey s.flowBlock)))))

/-- `BDEC` (R115). -/
def execBdec (s : State) : Host.Outcome State Fault Refusal :=
  .next (s.finish (s.needKeySchedule (.ok (s.withFlow (decBlock s.roundKey s.flowBlock)))))

end Sys2Proof.Machine
end

