-- ==== Sys2Proof/Machine/BlockCipher.lean ====
section
/-! DEFINITION. The block cipher encryptor and decryptor: MENC, MDEC, TRIMZ (42_block_cipher.md). The message commands use a
block register of their own and leave FLOW0..FLOW3 alone (D36). -/

namespace Sys2Proof.Machine

/-- `LOAD_BLOCK(b, L)`, byte k: padding by omission (R123). -/
def State.loadBlock (s : State) (b L : Nat) (k : Nat) : Byte :=
  if 16 * b + k < L then s.src.read (16 * b + k) else 0#8

/-- The loop of `TRIMZ_LEN`: while n > floor and O[n-1] = 0, n falls by 1 (R124). -/
def trimZeros (O : List Byte) (floor : Nat) : Nat → Nat
  | 0 => 0
  | n + 1 => if floor < n + 1 ∧ byteAt O n = 0#8 then trimZeros O floor n else n + 1

/-- `TRIMZ_LEN(O, L)` (R124). -/
def trimzLen (O : List Byte) (L : Nat) : Nat := if L = 0 then 0 else trimZeros O (L - 16) L

/-- The bytes of `B` blocks one after another (R120, R121). -/
def blocksBytes (B : Nat) (block : Nat → Block) : List Byte := (List.range B).flatMap fun b => flatten (block b)

/-- The encrypted message: `ceil_div(L, 16)` blocks, each on its own (R120). -/
def State.encryptedMessage (s : State) : List Byte :=
  blocksBytes (ceilDiv s.srcBytes 16) fun b => encBlock s.roundKey (partition (s.loadBlock b s.srcBytes))

/-- The decrypted message before the trim: L / 16 blocks (R121). -/
def State.decryptedMessage (s : State) : List Byte :=
  blocksBytes (s.srcBytes / 16) fun b => decBlock s.roundKey (partition fun k => s.src.read (16 * b + k))

/-- How many of the decrypted bytes MDEC keeps: all of them under NOTRIM, else `TRIMZ_LEN` (R121). -/
def State.mdecLen (s : State) (notrim : Bool) : Nat :=
  if notrim then s.srcBytes else trimzLen s.decryptedMessage s.srcBytes

/-- `MENC` (R120). -/
def execMenc (s : State) : Host.Outcome State Fault Refusal :=
  .next (s.finish (s.needKeySchedule (s.needSrcFits (.ok (s.writeResult s.encryptedMessage)))))

/-- `MDEC` and `MDEC.NT` (R121). -/
def execMdec (notrim : Bool) (s : State) : Host.Outcome State Fault Refusal :=
  .next (s.finish (s.needKeySchedule (s.needSrcFits (s.needWholeBlocks
    (.ok (s.writeResult (s.decryptedMessage.take (s.mdecLen notrim))))))))

/-- `TRIMZ` (R122). -/
def execTrimz (s : State) : Host.Outcome State Fault Refusal :=
  .next (s.finish (s.needSrcFits (s.needWholeBlocks
    (.ok (s.writeResult
      (s.src.readRange 0 (trimzLen (s.src.readRange 0 s.srcBytes) s.srcBytes)))))))

end Sys2Proof.Machine
end

