-- ==== Sys2Proof/Machine/Buffer.lean ====
section
/-! DEFINITION. Buffer and control commands: NOP, MOVE (44_buffer_and_control.md). -/

namespace Sys2Proof.Machine

/-- `NOP` (R160). -/
def execNop (s : State) : Host.Outcome State Fault Refusal := .next (s.finish (.ok s))

/-- SRC[0..n-1] takes DST[0..n-1] and SRC_LEN takes n = DST_LEN (R161). -/
def State.moveResult (s : State) : State :=
  { s with
    src := s.src.writeRange 0 (s.dst.readRange 0 s.dstLen.toNat)
    srcLen := s.dstLen }

/-- `MOVE` (R161). -/
def execMove (s : State) : Host.Outcome State Fault Refusal := .next (s.finish (.ok s.moveResult))

end Sys2Proof.Machine
end

