-- ==== Sys2Proof/Machine/KeySchedule.lean ====
section
/-! DEFINITION. The key schedule: KSCHED (40_key_schedule.md). -/

namespace Sys2Proof.Machine

/-- `ROT(k, s)`, s = 1..3, under each reading of the parameter KSCHED_ROT (R101). -/
def rotateKey (mode : KschedRot) (k : Flow) (s : Nat) : Flow :=
  match mode with
  | .bytePosRight => ofLanes fun i => lane k ((i + 4 - s) % 4)
  | .bytePosLeft => ofLanes fun i => lane k ((i + s) % 4)
  | .bitPerByteRight => ofLanes fun i => (lane k i >>> s) ||| (lane k i <<< (8 - s))

/-- `RK'[j][i] = K[4j + i]`, a direct slice of the key (R100, D6). -/
def State.keySlice (s : State) (j : Nat) : Flow := ofLanes fun i => s.keyByte (4 * j + i)

/-- `RK'[r]`: group r / 4 shifts slice r % 4; group 0 is the slices themselves (R100, R103). -/
def State.scheduledKey (s : State) (r : Nat) : Flow :=
  if r / 4 = 0 then s.keySlice (r % 4) else rotateKey s.params.rot (s.keySlice (r % 4)) (r / 4)

/-- All 16 round keys in packed form (R33, R100). -/
def State.schedule (s : State) : Vector Word 16 := Vector.ofFn fun r : Fin 16 => pack (s.scheduledKey r)

/-- The rule of KSCHED (R100). -/
def State.kschedRule (s : State) : Rule :=
  if s.keyLen = 16#32 then .ok { s with rk := s.schedule, status := s.status.withKeySchedule }
  else fails .invalidKeyLength s.keyLen

/-- `KSCHED` (R100). -/
def execKsched (s : State) : Host.Outcome State Fault Refusal := .next (s.finish s.kschedRule)

end Sys2Proof.Machine
end

