-- ==== Sys2Proof/Machine/Transposition.lean ====
section
/-! DEFINITION. The row-major grid transposition engine: TCFG, TENC, TDEC, TRIMP (43_transposition.md). -/

namespace Sys2Proof.Machine

/-! ## Configuration -/

/-- The check of one permutation key of size `n`, from index `j` on: the first index whose value is below 1, above n, or
among the values `seen` before it (R140). -/
def firstOffending (n : Nat) (seen : List Word) (j : Nat) : List Word → Option Nat
  | [] => none
  | v :: vs =>
    if v.toNat < 1 ∨ n < v.toNat ∨ v ∈ seen then some j else firstOffending n (seen ++ [v]) (j + 1) vs

/-- ERRINFO of a failing TCFG: bit 17 a length error, bit 16 the key (0 firstKey, 1 secondKey), bits 15:0 the index (R140, R202). -/
def keyErrorInfo (length second : Bool) (j : Nat) : Word :=
  flagBit length 17 ||| flagBit second 16 ||| BitVec.ofNat 32 j

/-- The latched state of a successful TCFG (R140). -/
def State.latchKeys (s : State) (n : Nat) : State :=
  { s with
    ni := s.tpN
    fki := s.fki.writeRange (s.fk.readRange n)
    ski := s.ski.writeRange (s.sk.readRange n)
    status := s.status.withPermutationKeys }

/-- The rule of TCFG (R140, R204). -/
def State.tcfgRule (s : State) : Rule :=
  let n := s.tpN.toNat
  if n = 0 ∨ s.params.nmax < n then fails .invalidPermutationKey (keyErrorInfo true false 0)
  else if s.tpSkLen ≠ s.tpN then fails .invalidPermutationKey (keyErrorInfo true true 0)
  else match firstOffending n [] 0 (s.fk.readRange n) with
    | some j => fails .invalidPermutationKey (keyErrorInfo false false j)
    | none => match firstOffending n [] 0 (s.sk.readRange n) with
      | some j => fails .invalidPermutationKey (keyErrorInfo false true j)
      | none => .ok (s.latchKeys n)

/-- `TCFG` (R140). -/
def execTcfg (s : State) : Host.Outcome State Fault Refusal := .next (s.finish s.tcfgRule)

/-! ## The grid algebra -/

/-- A grid of `rows` by `cols` cells, flattened row-major (R141). -/
def flatGrid (rows cols : Nat) (cell : Nat → Nat → Byte) : List Byte :=
  (List.range rows).flatMap fun i => (List.range cols).map fun j => cell i j

/-- A string of length `M` that is written position by position, the writes in the order listed (R141). -/
def scatter (M : Nat) (writes : List (Nat × Byte)) : List Byte :=
  writes.foldl (fun acc w => acc.set w.1 w.2) (List.replicate M 0#8)

/-- The writes of a `rows` by `cols` grid: cell (i, j) goes to position `at i j` (R141). -/
def gridWrites (rows cols : Nat) (pos : Nat → Nat → Nat) (cell : Nat → Nat → Byte) : List (Nat × Byte) :=
  (List.range rows).flatMap fun i => (List.range cols).map fun j => (pos i j, cell i j)

/-- `GRID1(t)` for a string of length L: cell (i, j) is t[i*N + j], or PAD past the end (R141). -/
def grid1 (t : Nat → Byte) (L N : Nat) (i j : Nat) : Byte := if i * N + j < L then t (i * N + j) else pad

/-- `COLSHUF(G)`: F[i*N + (FKI[j] - 1)] = G[i][j] (R141, C3). -/
def colShuf (R N : Nat) (col : Nat → Nat) (G : Nat → Nat → Byte) : List Byte :=
  scatter (R * N) (gridWrites R N (fun i j => i * N + col j) G)

/-- `REGRID2(F)`: T2[a][b] = F[a*R + b], a row-major reshape (R141). -/
def regrid2 (R : Nat) (F : List Byte) (a b : Nat) : Byte := byteAt F (a * R + b)

/-- `ROWSHUF(T2)`: C[(SKI[a] - 1)*R + b] = T2[a][b] (R141). -/
def rowShuf (R N : Nat) (row : Nat → Nat) (T2 : Nat → Nat → Byte) : List Byte :=
  scatter (R * N) (gridWrites N R (fun a b => row a * R + b) T2)

/-- `UNROW(c)`: S1[i*R + j] = c[(SKI[i] - 1)*R + j] (R141, C4). -/
def unRow (R N : Nat) (row : Nat → Nat) (c : List Byte) : List Byte :=
  flatGrid N R fun i j => byteAt c (row i * R + j)

/-- `UNCOL(S1)`: O[i*N + j] = S1[i*N + (FKI[j] - 1)] (R141). -/
def unCol (R N : Nat) (col : Nat → Nat) (S1 : List Byte) : List Byte :=
  flatGrid R N fun i j => byteAt S1 (i * N + col j)

/-! ## The pad trim -/

/-- The first loop of `STRIP`: how many pad bytes lead (R145). -/
def leadingPads : List Byte → Nat
  | [] => 0
  | b :: bs => if b = pad then leadingPads bs + 1 else 0

/-- The second loop of `STRIP`: while e > a and O[e-1] = PAD, e falls by 1 (R145). -/
def trimPads (O : List Byte) (a : Nat) : Nat → Nat
  | 0 => 0
  | e + 1 => if a < e + 1 ∧ byteAt O e = pad then trimPads O a e else e + 1

/-- The bytes that `STRIP` keeps: O[a .. a+n-1] (R145). -/
def stripPads (O : List Byte) : List Byte :=
  let a := leadingPads O
  (O.take (trimPads O a O.length)).drop a

/-! ## Commands -/

/-- R = rowCount and M = R * N for a string of length L (R141). -/
def State.rowCount (s : State) : Nat := ceilDiv s.srcBytes s.keysSize

/-- The result of TENC: ROWSHUF(REGRID2(COLSHUF(GRID1(SRC)))) (R142). -/
def State.transposed (s : State) : List Byte :=
  let N := s.keysSize
  let R := s.rowCount
  rowShuf R N s.row (regrid2 R (colShuf R N s.column (grid1 s.src.read s.srcBytes N)))

/-- The result of TDEC before the trim: UNCOL(UNROW(SRC)), R = L / N (R143). -/
def State.untransposed (s : State) : List Byte :=
  let N := s.keysSize
  let R := s.srcBytes / N
  unCol R N s.column (unRow R N s.row (s.src.readRange 0 s.srcBytes))

/-- `if M > MAXLEN: raise LengthOverflow(M)` (R142, R204). -/
def State.needPaddedFits (s : State) (go : Rule) : Rule :=
  if s.params.maxlen < s.rowCount * s.keysSize then
    fails .lengthOverflow (BitVec.ofNat 32 (s.rowCount * s.keysSize))
  else go

/-- `if L % N != 0: raise KeyLengthMismatch(L)` (R143, R204). -/
def State.needWholeRows (s : State) (go : Rule) : Rule :=
  if s.srcBytes % s.keysSize = 0 then go else fails .keyLengthMismatch s.srcLen

/-- `TENC` (R142). -/
def execTenc (s : State) : Host.Outcome State Fault Refusal :=
  .next (s.finish (s.needPermutationKeys (s.needSrcFits (s.needPaddedFits (.ok (s.writeResult s.transposed))))))

/-- `TDEC` and `TDEC.NT` (R143). -/
def execTdec (notrim : Bool) (s : State) : Host.Outcome State Fault Refusal :=
  .next (s.finish (s.needPermutationKeys (s.needSrcFits (s.needWholeRows
    (.ok (s.writeResult (if notrim then s.untransposed else stripPads s.untransposed)))))))

/-- `TRIMP` (R144). -/
def execTrimp (s : State) : Host.Outcome State Fault Refusal :=
  .next (s.finish (s.needSrcFits (.ok (s.writeResult (stripPads (s.src.readRange 0 s.srcBytes))))))

end Sys2Proof.Machine
end

