-- ==== Sys2Proof/Machine/Dispatch.lean ====
section
/-! DEFINITION. The meaning of each command: the engine's complete step for a decoded CMD word (60_exceptions.md rule R201). -/

namespace Sys2Proof.Machine

def exec (i : Instr) (s : State) : Host.Outcome State Fault Refusal :=
  match i with
  | .nop => Sys2Proof.Machine.execNop s
  | .ksched => Sys2Proof.Machine.execKsched s
  | .renc r => Sys2Proof.Machine.execRenc r s
  | .rdec r => Sys2Proof.Machine.execRdec r s
  | .benc => Sys2Proof.Machine.execBenc s
  | .bdec => Sys2Proof.Machine.execBdec s
  | .menc => Sys2Proof.Machine.execMenc s
  | .mdec notrim => Sys2Proof.Machine.execMdec notrim s
  | .tcfg => Sys2Proof.Machine.execTcfg s
  | .tenc => Sys2Proof.Machine.execTenc s
  | .tdec notrim => Sys2Proof.Machine.execTdec notrim s
  | .trimz => Sys2Proof.Machine.execTrimz s
  | .trimp => Sys2Proof.Machine.execTrimp s
  | .move => Sys2Proof.Machine.execMove s

end Sys2Proof.Machine
end

