-- ==== Sys2Proof/WellFormed.lean ====
section
/-! DEFINITION. Which commands can be written: RENC and RDEC take "one decimal operand 0..15" (30_encoding.md rule R76);
every other command is well formed as it stands. -/

namespace Sys2Proof

/-- The operand check of rules R72 and R76. -/
def Instr.wf : Instr → Bool
  | .renc r => decide (r < rounds)
  | .rdec r => decide (r < rounds)
  | .nop => true
  | .ksched => true
  | .benc => true
  | .bdec => true
  | .menc => true
  | .mdec _ => true
  | .tcfg => true
  | .tenc => true
  | .tdec _ => true
  | .trimz => true
  | .trimp => true
  | .move => true

/-- The command can be written and encoded. -/
abbrev Instr.WellFormed (i : Instr) : Prop := i.wf = true

end Sys2Proof
end

