-- ==== Sys2Proof/Decode.lean ====
section
/-! DEFINITION. Decoding a latched CMD word, the encoder, and the command syntax (30_encoding.md rules R70 to R76). -/

namespace Sys2Proof

/-! ## The opcode map -/

/-- A row of the opcode map: a word `c` matches it when `c &&& mask = pattern` (R73). -/
structure OpRow where
  mnemonic : String
  pattern : Word
  mask : Word
  build : Word → Instr

/-- RIDX, bits 11:8 of the command word, zero-extended (R70, R72). -/
def ridxField (c : Word) : Nat := (c >>> 8).toNat % 16

/-- NOTRIM, bit 12 of the command word (R70). -/
def notrimField (c : Word) : Bool := c.getLsbD 12

/-- The opcode map of rule R73 in its match and mask form. -/
def opTable : List OpRow :=
  [ ⟨"NOP",    0x00000000#32, 0xFFFFFFFF#32, fun _ => .nop⟩,
    ⟨"KSCHED", 0x00000001#32, 0xFFFFFFFF#32, fun _ => .ksched⟩,
    ⟨"RENC",   0x00000002#32, 0xFFFFF0FF#32, fun c => .renc (ridxField c)⟩,
    ⟨"RDEC",   0x00000003#32, 0xFFFFF0FF#32, fun c => .rdec (ridxField c)⟩,
    ⟨"BENC",   0x00000004#32, 0xFFFFFFFF#32, fun _ => .benc⟩,
    ⟨"BDEC",   0x00000005#32, 0xFFFFFFFF#32, fun _ => .bdec⟩,
    ⟨"MENC",   0x00000006#32, 0xFFFFFFFF#32, fun _ => .menc⟩,
    ⟨"MDEC",   0x00000007#32, 0xFFFFEFFF#32, fun c => .mdec (notrimField c)⟩,
    ⟨"TCFG",   0x00000008#32, 0xFFFFFFFF#32, fun _ => .tcfg⟩,
    ⟨"TENC",   0x00000009#32, 0xFFFFFFFF#32, fun _ => .tenc⟩,
    ⟨"TDEC",   0x0000000A#32, 0xFFFFEFFF#32, fun c => .tdec (notrimField c)⟩,
    ⟨"TRIMZ",  0x0000000B#32, 0xFFFFFFFF#32, fun _ => .trimz⟩,
    ⟨"TRIMP",  0x0000000C#32, 0xFFFFFFFF#32, fun _ => .trimp⟩,
    ⟨"MOVE",   0x0000000D#32, 0xFFFFFFFF#32, fun _ => .move⟩ ]

/-- The word matches the row under the row's mask (R73, R74). -/
def OpRow.matches (row : OpRow) (c : Word) : Bool := c &&& row.mask == row.pattern

/-! ## Decode -/

/-- Why a word is no command. Each of them is illegal (R74, R75). -/
inductive Reject where
  /-- OP is 0x0E to 0xFF -/
  | reservedOp
  /-- bits 31:13 are not all 0 -/
  | reservedBits
  /-- RIDX is not 0 on a command that does not use it -/
  | ridxUnused
  /-- NOTRIM is 1 on a command that does not use it -/
  | notrimUnused
deriving DecidableEq, Repr

/-- The name of a word's fault: the first of R75's grounds that it meets. The engine reports none of them apart (R202; log 17). -/
def rejectReason (c : Word) : Reject :=
  if 0x0D < c.toNat % 256 then .reservedOp
  else if c >>> 13 ≠ 0#32 then .reservedBits
  else if ridxField c ≠ 0 ∧ c.toNat % 256 ≠ 0x02 ∧ c.toNat % 256 ≠ 0x03 then .ridxUnused
  else .notrimUnused

/-- The command a latched word stands for, or the name of what makes it illegal (R74). -/
def decode (c : Word) : Except Reject Instr :=
  match opTable.find? (fun row => row.matches c) with
  | some row => .ok (row.build c)
  | none => .error (rejectReason c)

/-- The instruction read from a row's bits: the command word is bits 31:0, latched in CMD as written (R23, R71). -/
def decodeTableWord (nbits w : Nat) : Option Instr :=
  match decode (BitVec.ofNat 32 (w % 2 ^ nbits)) with
  | .ok i => some i
  | .error _ => none

/-! ## Encode -/

/-- The 32-bit command word with the given fields (R70): reserved bits 31:13 are 0. -/
def commandWord (op ridx : Nat) (notrim : Bool) : Word :=
  BitVec.ofNat 32 op ||| (BitVec.ofNat 32 ridx <<< 8) ||| (if notrim then 0x1000#32 else 0#32)

/-- The word of a well-formed command (R73, R76). -/
def encode : Instr → Word
  | .nop => commandWord 0x00 0 false
  | .ksched => commandWord 0x01 0 false
  | .renc r => commandWord 0x02 r false
  | .rdec r => commandWord 0x03 r false
  | .benc => commandWord 0x04 0 false
  | .bdec => commandWord 0x05 0 false
  | .menc => commandWord 0x06 0 false
  | .mdec nt => commandWord 0x07 0 nt
  | .tcfg => commandWord 0x08 0 false
  | .tenc => commandWord 0x09 0 false
  | .tdec nt => commandWord 0x0A 0 nt
  | .trimz => commandWord 0x0B 0 false
  | .trimp => commandWord 0x0C 0 false
  | .move => commandWord 0x0D 0 false

/-! ## Command syntax -/

/-- A command as rule R76 writes it. -/
def Instr.text : Instr → String
  | .nop => "NOP"
  | .ksched => "KSCHED"
  | .renc r => "RENC " ++ toString r
  | .rdec r => "RDEC " ++ toString r
  | .benc => "BENC"
  | .bdec => "BDEC"
  | .menc => "MENC"
  | .mdec false => "MDEC"
  | .mdec true => "MDEC.NT"
  | .tcfg => "TCFG"
  | .tenc => "TENC"
  | .tdec false => "TDEC"
  | .tdec true => "TDEC.NT"
  | .trimz => "TRIMZ"
  | .trimp => "TRIMP"
  | .move => "MOVE"

/-- Every well-formed command: 12 rows without a free operand form, 16 forms each of RENC and RDEC, and the `.NT` forms. -/
def allCommands : List Instr :=
  [.nop, .ksched] ++ (List.range 16).map .renc ++ (List.range 16).map .rdec
    ++ [.benc, .bdec, .menc, .mdec false, .mdec true, .tcfg, .tenc, .tdec false, .tdec true, .trimz, .trimp, .move]

/-- The word of a command written in rule R76's syntax; text of any other form has none. -/
def assemble (text : String) : Option Word := (allCommands.find? (fun i => i.text == text)).map encode

end Sys2Proof
end

