-- ==== Sys2Proof/Machine/Bus.lean ====
section
/-! DEFINITION. Host bus transactions: the address map, reads and writes (20_memory.md rules R50 to R57). -/

namespace Sys2Proof.Machine

/-! ## The address map -/

/-- What stands at a word of the window (R50). -/
inductive Target where
  | id
  | cmd
  | status
  | errinfo
  | keyLen
  | tpN
  | tpSkLen
  | srcLen
  | dstLen
  /-- KEYw (R31) -/
  | key (w : Fin 4)
  /-- FLOWp (R32) -/
  | flow (p : Fin 4)
  /-- RKr (R33) -/
  | rk (r : Fin 16)
  /-- FK[j], j < NMAX (R34) -/
  | fk (j : Nat)
  /-- SK[j], j < NMAX (R35) -/
  | sk (j : Nat)
  /-- the SRC word of bytes 4q..4q+3 (R36) -/
  | src (q : Nat)
  /-- the DST word of bytes 4q..4q+3 (R37) -/
  | dst (q : Nat)
  /-- a reserved range, an entry j ≥ NMAX, or a word at or past MAXLEN (R55) -/
  | unmapped
deriving DecidableEq, Repr

/-- ID's constant: 'C', 'N', 'Y', revision 1 (R22). -/
def idValue : Word := 0x434E5901#32

/-- How many bytes of offset the core decodes (R50). -/
def windowBytes : Nat := 0x30000

/-- What stands at word `w` (offset 4w) below offset 0x1000 (R50). -/
def registerAt (w : Nat) : Target :=
  match w with
  | 0 => .id
  | 1 => .cmd
  | 2 => .status
  | 3 => .errinfo
  | 4 => .keyLen
  | 5 => .tpN
  | 6 => .tpSkLen
  | 7 => .srcLen
  | 8 => .dstLen
  | 12 => .key 0
  | 13 => .key 1
  | 14 => .key 2
  | 15 => .key 3
  | 16 => .flow 0
  | 17 => .flow 1
  | 18 => .flow 2
  | 19 => .flow 3
  | _ => if 32 ≤ w ∧ w < 48 then .rk (Fin.ofNat 16 (w - 32)) else .unmapped

/-- A word that exists only below a capacity (R55). -/
def within (present : Prop) [Decidable present] (t : Target) : Target := if present then t else .unmapped

/-- What stands at the word of offset `off` (R50, R55). -/
def targetAt (p : Params) (off : Nat) : Target :=
  if off < 0x01000 then registerAt (off / 4)
  else if off < 0x02000 then within ((off - 0x01000) / 4 < p.nmax) (.fk ((off - 0x01000) / 4))
  else if off < 0x03000 then within ((off - 0x02000) / 4 < p.nmax) (.sk ((off - 0x02000) / 4))
  else if off < 0x10000 then .unmapped
  else if off < 0x20000 then within (4 * ((off - 0x10000) / 4) < p.maxlen) (.src ((off - 0x10000) / 4))
  else if off < windowBytes then within (4 * ((off - 0x20000) / 4) < p.maxlen) (.dst ((off - 0x20000) / 4))
  else .unmapped

/-! ## Words of the window -/

/-- Word q of a byte buffer: byte 4q + b in lane b (R57). -/
def Memory.readWord (m : Memory) (q : Nat) : Word := pack (ofLanes fun b => m.read (4 * q + b))

/-- Write word q of a byte buffer (R57). -/
def Memory.writeWord (m : Memory) (q : Nat) (v : Word) : Memory := m.writeRange (4 * q) (flowBytes (unpack v))

/-- A read of RKr: its value, or an unspecified value while RK_VALID = 0 (R33, U3; log 6). -/
def State.readRk (s : State) (r : Fin 16) : Word :=
  if s.status.rkValid then s.rk[r] else Config.freeWord s.rkDraw r

/-- What stands at a target (R22 to R37); unmapped offsets read 0 (R55). -/
def State.valueAt (s : State) : Target → Word
  | .id => idValue
  | .cmd => s.cmd
  | .status => s.status.toWord
  | .errinfo => s.errinfo
  | .keyLen => s.keyLen
  | .tpN => s.tpN
  | .tpSkLen => s.tpSkLen
  | .srcLen => s.srcLen
  | .dstLen => s.dstLen
  | .key w => s.key[w]
  | .flow p => s.flow[p]
  | .rk r => s.readRk r
  | .fk j => s.fk.read j
  | .sk j => s.sk.read j
  | .src q => s.src.readWord q
  | .dst q => s.dst.readWord q
  | .unmapped => 0#32

/-- Reads that stay exact while BUSY = 1: ID, CMD and STATUS (R54). -/
def Target.exactWhileBusy : Target → Bool
  | .id => true
  | .cmd => true
  | .status => true
  | _ => false

/-- `BusRead(off)`: the value, and the state after. Reads have no side effect on the core (R55). While BUSY = 1 a read of
any offset but ID, CMD and STATUS is a free value, one draw per read (R54, U2; log 9). -/
def State.busRead (s : State) (off : Nat) : Word × State :=
  let t := targetAt s.params off
  if s.status.busy && !t.exactWhileBusy then (Config.freeWord s.drawn off, { s with drawn := s.drawn + 1 })
  else (s.valueAt t, s)

/-- Store a word at a target. A write to CMD issues it (R200); read-only and unmapped targets ignore it (R55). -/
def State.storeAt (s : State) (t : Target) (v : Word) : State :=
  match t with
  | .cmd => s.issue v
  | .keyLen => { s with keyLen := v }
  | .tpN => { s with tpN := v }
  | .tpSkLen => { s with tpSkLen := v }
  | .srcLen => { s with srcLen := v }
  | .key w => { s with key := s.key.set w v }
  | .flow p => { s with flow := s.flow.set p v }
  | .fk j => { s with fk := s.fk.write j v }
  | .sk j => { s with sk := s.sk.write j v }
  | .src q => { s with src := s.src.writeWord q v }
  | .id => s
  | .status => s
  | .errinfo => s
  | .dstLen => s
  | .rk _ => s
  | .dst _ => s
  | .unmapped => s

/-- `BusWrite(off, v)`: every write while BUSY = 1 is ignored, CMD's among them (R54, U10). -/
def State.busWrite (s : State) (off : Nat) (v : Word) : State :=
  if s.status.busy then s else s.storeAt (targetAt s.params off) v

/-! ## Transactions -/

/-- The offset of a bus address and a width, or why the model refuses it (R50, R53, U1; log 13). -/
def State.offsetOf (s : State) (addr width : Nat) : Except Refusal Nat :=
  if addr < s.params.base ∨ s.params.base + windowBytes ≤ addr then .error .outsideWindow
  else if width ≠ 32 ∨ (addr - s.params.base) % 4 ≠ 0 then .error .unsupportedTransaction
  else .ok (addr - s.params.base)

/-- One transaction (R51, R52): a read leaves its value in the Host's variable t. -/
def State.transact (s : State) : Transaction → Host.Outcome State Fault Refusal
  | .read addr width =>
    match s.offsetOf addr width with
    | .ok off => .next { (s.busRead off).2 with hostVar := (s.busRead off).1 }
    | .error r => .refused r
  | .write addr width v =>
    match s.offsetOf addr width with
    | .ok off => .next (s.busWrite off v)
    | .error r => .refused r

end Sys2Proof.Machine
end

