-- ==== Sys2Proof/Machine/HostAgent.lean ====
section
/-! DEFINITION. The Host agent: the program syntax of 30_encoding.md rule R77 and one turn of the Host (10_state.md rule R20,
20_memory.md rule R52). -/

namespace Sys2Proof.Machine

/-! ## Pseudo-instructions -/

/-- `ISSUE cmd`: WR 0x004, word(cmd) (R77). -/
def issueLine (i : Instr) : HostOp := .wr 0x004 (encode i)

/-- `DO cmd`: ISSUE cmd ; WAIT (R77). -/
def doCommand (i : Instr) : List HostOp := [issueLine i, .wait]

/-- `WRBYTES base, s`: one WR a word, lanes past the end of s written 0 (R77). -/
def wrBytes (base : Nat) (bs : List Byte) : List HostOp :=
  (List.range (ceilDiv bs.length 4)).map fun q => .wr (base + 4 * q) (pack (ofLanes fun b => byteAt bs (4 * q + b)))

/-! ## One turn of the Host -/

/-- The transaction of a line: the Host adds BASE (R50, R77). WAIT reads STATUS. -/
def State.lineTransaction (s : State) : HostOp → Transaction
  | .wr off v => .write (s.params.base + off) 32 v
  | .rd off => .read (s.params.base + off) 32
  | .wait => .read (s.params.base + 0x008) 32
  | .check off _ => .read (s.params.base + off) 32
  | .raw t => t

/-- After the transaction of a line: WAIT goes to L again while t[0] = 1; CHECK asserts t = v; the Host then goes on with
the next line (R77; log 10). -/
def State.afterLine (s : State) (line : HostOp) (rest : List HostOp) : Host.Outcome State Fault Refusal :=
  match line with
  | .wait => .next (if s.hostVar.getLsbD 0 then s else { s with hostProg := rest })
  | .check _ v => if s.hostVar = v then .next { s with hostProg := rest } else .fault .assertFailed
  | .wr _ _ => .next { s with hostProg := rest }
  | .rd _ => .next { s with hostProg := rest }
  | .raw _ => .next { s with hostProg := rest }

/-- One turn of the Host: the transaction of its next line. A Host without a line left does nothing (logs 2, 12). -/
def State.hostTurn (s : State) : Host.Outcome State Fault Refusal :=
  match s.hostProg with
  | [] => .next s
  | line :: rest =>
    match s.transact (s.lineTransaction line) with
    | .next t => t.afterLine line rest
    | .fault f => .fault f
    | .refused r => .refused r

end Sys2Proof.Machine
end

