-- ==== Sys2Proof/Machine/Agents.lean ====
section
/-! DEFINITION. Who moves, and one turn of each agent (10_state.md rule R20, 20_memory.md rule R61, 70_reset_and_hazards.md
rules R236, R238). -/

namespace Sys2Proof.Machine

/-! ## The engine -/

/-- The complete step of an issued command: decode CMD, then perform it; an illegal word performs nothing and raises
IllegalCommand with the word (R74, R201, R204). -/
def State.completeStep (s : State) : Host.Outcome State Fault Refusal :=
  match decode s.cmd with
  | .ok i => exec i s
  | .error _ => .next (s.raise ⟨.illegalCommand, s.cmd⟩)

/-- One turn of the Engine: the complete step "is enabled exactly when STATUS.BUSY = 1" (R201); an idle engine does
nothing (log 2). -/
def State.engineTurn (s : State) : Host.Outcome State Fault Refusal :=
  if s.status.busy then s.completeStep else .next s

/-! ## The schedule -/

/-- Who moves next: the first of the schedule; without one, the Engine while a command is pending, so that it is
eventually completed (R236), and else the Host (log 2). -/
def State.mover (s : State) : Agent :=
  match s.sched with
  | a :: _ => a
  | [] => if s.status.busy then .engine else .host

/-- The state with the turn taken off the schedule. -/
def State.popTurn (s : State) : State := { s with sched := s.sched.tail }

/-- One turn of an agent. -/
def State.turn (s : State) : Agent → Host.Outcome State Fault Refusal
  | .host => s.hostTurn
  | .engine => s.engineTurn
  | .platformReset => .next s.platformReset

/-- The word `w` of a command issued to the engine, and the engine's turn next (R200; log 1). -/
def State.issueNow (s : State) (c : Word) : State := { s.issue c with sched := .engine :: s.sched }

end Sys2Proof.Machine
end

