-- ==== Sys2Proof/Machine/Step.lean ====
section
/-! DEFINITION. One step of the machine (20_memory.md rule R61: one total order of host transactions, complete steps and
resets), and how a command word is placed to run next. -/

namespace Sys2Proof.Machine

/-- One step: the agent that moves takes its turn. -/
def step (s : State) : Host.Outcome State Fault Refusal := s.popTurn.turn s.mover

/-- `s` with the command word of the low `nbits` bits of `w` issued, so that the very next step runs it. The core fetches
nothing: a command comes to run by the Host's write to CMD (R200), which this stands for (log 1). -/
def State.withFetchWord (s : State) (nbits w : Nat) : State := s.issueNow (BitVec.ofNat 32 (w % 2 ^ nbits))

end Sys2Proof.Machine
end

