-- ==== Sys2Proof/Safety.lean ====
section
/-! DEFINITION. The terms of the claims: the invariant of the core, what a completion leaves, permutation keys, the bit-level
maps of the laws, and what a safe run is. -/

namespace Sys2Proof.Machine

/-! ## Permutation keys -/

/-- `f 0, ..., f (n-1)` are n distinct integers in [1, n] (00_scope.md rule R12). -/
def IsPermutationKey (n : Nat) (f : Nat → Word) : Prop :=
  (∀ j, j < n → 1 ≤ (f j).toNat ∧ (f j).toNat ≤ n) ∧ ∀ i j, i < j → j < n → f i ≠ f j

/-- Index `j` of a key of size `n` is offending: its value is out of range or occurs before it (R140). -/
def OffendingAt (n : Nat) (f : Nat → Word) (j : Nat) : Prop :=
  (f j).toNat < 1 ∨ n < (f j).toNat ∨ ∃ i, i < j ∧ f i = f j

/-- `j` is the first offending index of a key of size `n` (R140). -/
def FirstOffendingAt (n : Nat) (f : Nat → Word) (j : Nat) : Prop :=
  j < n ∧ OffendingAt n f j ∧ ∀ i, i < j → ¬ OffendingAt n f i

/-! ## Completions -/

/-- What rule R201 makes of a result state: BUSY 0, DONE 1, and the completion's ERRCODE in the model's history. -/
def State.afterSuccess (s : State) : State :=
  { s with status := { s.status with busy := false, done := true }, history := s.status.errcode :: s.history }

/-- What rule R201 makes of the state at issue when the command raises the error of code `code` with `info`. -/
def State.afterError (s : State) (code : BitVec 4) (info : Word) : State :=
  { s with
    status := { s.status with busy := false, done := true, err := true, errcode := code }
    errinfo := info
    history := code :: s.history }

/-- The state of a command whose result is the bytes of `dst` and the length `len`. -/
def State.withResult (s : State) (dst : Memory) (len drawn : Nat) : State :=
  { s with dst := dst, dstLen := BitVec.ofNat 32 len, drawn := drawn }

/-! ## Rounds in packed words -/

/-- ENC_ROUND in packed words (41_feistel_round.md rule R110). -/
def packedEncRound (f : Vector Word 4) (k : Word) : Vector Word 4 :=
  #v[f[1] ^^^ (f[0] ^^^ k), f[2] ^^^ (f[0] ^^^ k), f[3] ^^^ (f[0] ^^^ k), f[0]]

/-- DEC_ROUND in packed words (rule R111). -/
def packedDecRound (f : Vector Word 4) (k : Word) : Vector Word 4 :=
  #v[f[3], f[0] ^^^ (f[3] ^^^ k), f[1] ^^^ (f[3] ^^^ k), f[2] ^^^ (f[3] ^^^ k)]

/-- Λ(a, b, c, d) = (a^b, a^c, a^d, a) (rule R118). -/
def lambdaMap (b : Block) : Block := ⟨xorFlow b.f1 b.f2, xorFlow b.f1 b.f3, xorFlow b.f1 b.f4, b.f1⟩

/-- Λ⁻¹(p, q, r, s) = (s, p^s, q^s, r^s) (rule R118). -/
def lambdaInv (b : Block) : Block := ⟨b.f4, xorFlow b.f1 b.f4, xorFlow b.f2 b.f4, xorFlow b.f3 b.f4⟩

/-- Blockwise `^`. -/
def xorBlock (a b : Block) : Block := ⟨xorFlow a.f1 b.f1, xorFlow a.f2 b.f2, xorFlow a.f3 b.f3, xorFlow a.f4 b.f4⟩

/-- The all-zero block. -/
def zeroBlock : Block := partition fun _ => 0#8

/-- Byte `k` of a block, k = 0..15, in flow order (00_scope.md rule R11). -/
def blockByte (b : Block) (k : Nat) : Byte := byteAt (flatten b) k

/-! ## Trims and positions -/

/-- `n` is what TRIMZ_LEN leaves of the `L` bytes `O 0, O 1, ...` (42_block_cipher.md rule R124): only zero bytes of the
final block go, and the last byte kept of that block is not zero. -/
def ZeroTrimmed (O : Nat → Byte) (L n : Nat) : Prop :=
  n ≤ L ∧ L ≤ n + 16 ∧ (∀ k, n ≤ k → k < L → O k = 0#8) ∧ (L = 0 ∨ n + 16 = L ∨ O (n - 1) ≠ 0#8)

/-- `O a, ..., O (a+n-1)` is what STRIP leaves of the `L` bytes `O 0, O 1, ...` (43_transposition.md rule R145). -/
def PadStripped (O : Nat → Byte) (L a n : Nat) : Prop :=
  a + n ≤ L ∧ (∀ k, k < a → O k = pad) ∧ (∀ k, a + n ≤ k → k < L → O k = pad) ∧
    (n ≠ 0 → O a ≠ pad ∧ O (a + n - 1) ≠ pad)

/-- Where TENC puts cell (i, j) of the first grid, with R rows: C[(SKI[a] - 1)*R + b] = F[a*R + b] and
F[i*N + FKI[j] - 1] = G[i][j] (43_transposition.md rule R142). -/
def State.cipherPos (s : State) (R i j : Nat) : Nat :=
  let p := i * s.ni.toNat + ((s.fki.read j).toNat - 1)
  ((s.ski.read (p / R)).toNat - 1) * R + p % R

/-- The latched keys are two permutations of 1..NI, NI ≥ 1 (rule R140). -/
def State.KeysLatched (s : State) : Prop :=
  1 ≤ s.ni.toNat ∧ IsPermutationKey s.ni.toNat s.fki.read ∧ IsPermutationKey s.ni.toNat s.ski.read

/-! ## The invariant -/

/-- What holds of every state the core can be in (10_state.md rules R24, R30, R36 to R38; 00_scope.md rule R6). -/
structure State.Inv (s : State) : Prop where
  /-- the parameters are legal (R6) -/
  params : s.params.Legal
  /-- the buffers and tables are in canonical form -/
  wf : s.src.wf ∧ s.dst.wf ∧ s.fk.wf ∧ s.sk.wf ∧ s.fki.wf ∧ s.ski.wf
  /-- SRC has MAXLEN bytes (R36) -/
  srcFits : ∀ c ∈ s.src.cells, c.1 < s.params.maxlen
  /-- each table has NMAX entries (R34, R35, R38) -/
  tablesFit : ∀ c ∈ s.fk.cells ++ s.sk.cells ++ s.fki.cells ++ s.ski.cells, c.1 < s.params.nmax
  /-- DST_LEN ≤ MAXLEN (R30) -/
  dstLenFits : s.dstLen.toNat ≤ s.params.maxlen
  /-- DST[0..DST_LEN-1] and no other byte has a defined value (R37) -/
  dstExtent : s.dst.cells.map Prod.fst = List.range s.dstLen.toNat
  /-- BUSY = 1 with DONE = 0 and ERR = 0 (R24) -/
  busyClean : s.status.busy = true → s.status.done = false ∧ s.status.err = false
  /-- ERR = 1 implies DONE = 1 and ERRCODE ≠ 0 (R24) -/
  errDone : s.status.err = true → s.status.done = true ∧ s.status.errcode ≠ 0#4
  /-- ERRCODE and ERRINFO are 0 when ERR = 0 (R24, R25) -/
  noErr : s.status.err = false → s.status.errcode = 0#4 ∧ s.errinfo = 0#32
  /-- ERRCODE 9 to 15 are never produced (R202, U9) -/
  codes : s.status.errcode.toNat ≤ 8 ∧ ∀ c ∈ s.history, c.toNat ≤ 8
  /-- TP_VALID = 1 means that NI, FKI and SKI hold two permutations of 1..NI, 1 ≤ NI ≤ NMAX (R24, R140) -/
  keys : s.status.tpValid = true →
    (1 ≤ s.ni.toNat ∧ s.ni.toNat ≤ s.params.nmax) ∧
      IsPermutationKey s.ni.toNat s.fki.read ∧ IsPermutationKey s.ni.toNat s.ski.read

/-! ## Safe runs -/

/-- No completion so far recorded an error (60_exceptions.md rule R207, D22). -/
abbrev State.NoErrorRecorded (s : State) : Prop := ∀ c ∈ s.history, c = 0#4

/-- A step is safe: it ends in a next state, and every completion up to it is free of errors. -/
def SafeStep (s : State) : Prop := ∃ t, step s = .next t ∧ t.NoErrorRecorded

end Sys2Proof.Machine
end

