-- ==== Sys2Proof/Certificates/Slice0/Obligations.lean ====
section
/-! DEFINITION. The statements for the provers, from the numbered rules of spec/. OBLIGATIONS.json lists them. -/

open Sys2Proof Sys2Proof.Machine

/-! ## Encoding -/

/-- Decoding the word of a well-formed command gives the command back, at every operand (R70 to R73, R76). -/
def Obligations.DecodeUndoesEncode : Prop := ∀ i : Instr, i.WellFormed → decode (encode i) = .ok i

/-- A word that decodes is the word of its command, which is well formed: no bit of a word is ignored (R74, R75). -/
def Obligations.EncodeUndoesDecode : Prop := ∀ (c : Word) (i : Instr), decode c = .ok i → i.WellFormed ∧ encode i = c

/-- A word is a command exactly when R74's formula holds, and exactly when it matches a row and no row of another name;
any other word performs nothing and raises IllegalCommand with the word (R74). -/
def Obligations.LegalWordsDecodeAndOthersRaiseIllegalCommand : Prop :=
  ∀ c : Word,
    ((∃ i, decode c = .ok i) ↔
      c.extractLsb' 13 19 = 0#19 ∧ (c.extractLsb' 0 8).toNat ≤ 0x0D ∧
        (c.extractLsb' 8 4 = 0#4 ∨ c.extractLsb' 0 8 = 0x02#8 ∨ c.extractLsb' 0 8 = 0x03#8) ∧
        (c.getLsbD 12 = false ∨ c.extractLsb' 0 8 = 0x07#8 ∨ c.extractLsb' 0 8 = 0x0A#8)) ∧
    ((∃ i, decode c = .ok i) ↔
      ∃ row ∈ opTable, c &&& row.mask = row.pattern ∧
        ∀ row' ∈ opTable, c &&& row'.mask = row'.pattern → row'.mnemonic = row.mnemonic) ∧
    ∀ s : State, s.cmd = c → (¬ ∃ i, decode c = .ok i) →
      ∃ t, s.completeStep = .next t ∧
        t = { s with
          status := { s.status with busy := false, done := true, err := true, errcode := 7#4 }
          errinfo := c
          history := t.history }

/-- Words written out from the table of R73 and the syntax of R76. -/
def Obligations.TableWordsDecode : Prop :=
  decode 0x00000000#32 = .ok .nop ∧ decode 0x00000001#32 = .ok .ksched ∧ decode 0x00000702#32 = .ok (.renc 7) ∧
  decode 0x00000F03#32 = .ok (.rdec 15) ∧ decode 0x00000006#32 = .ok .menc ∧ decode 0x00001007#32 = .ok (.mdec true) ∧
  decode 0x00000008#32 = .ok .tcfg ∧ decode 0x0000100A#32 = .ok (.tdec true) ∧ decode 0x0000000D#32 = .ok .move ∧
  decode 0x0000000E#32 = .error .reservedOp ∧ decode 0x00000104#32 = .error .ridxUnused ∧
  decode 0x00001006#32 = .error .notrimUnused ∧ decode 0x00002000#32 = .error .reservedBits

/-! ## Issue, the engine's step, completion -/

/-- A write to CMD issues the word when BUSY = 0 and does nothing when BUSY = 1 (R200). -/
def Obligations.CmdWriteIssuesOrIsLost : Prop :=
  ∀ (s : State) (c : Word),
    (s.status.busy = false → s.busWrite 0x004 c =
      { s with
        cmd := c
        status := { busy := true, done := false, err := false, errcode := 0#4,
                    rkValid := s.status.rkValid, tpValid := s.status.tpValid }
        errinfo := 0#32 }) ∧
    (s.status.busy = true → s.busWrite 0x004 c = s)

/-- A step of the engine with a pending word that decodes is exec of its command, after the turn is taken off the
schedule; without a schedule a pending command is the next to move (R201, R236). -/
def Obligations.EngineStepRunsDecodedCommand : Prop :=
  ∀ (s : State) (i : Instr), (s.sched = [] ∨ ∃ rest, s.sched = .engine :: rest) → s.status.busy = true →
    decode s.cmd = .ok i → step s = exec i { s with sched := s.sched.tail }

/-- A placed command word is issued, and the very next step runs its command (R200, R201). -/
def Obligations.PlacedCommandRunsNext : Prop :=
  ∀ (s : State) (i : Instr), i.WellFormed →
    step (s.withFetchWord 32 (encode i).toNat) =
      exec i { s with
        cmd := encode i
        status := { s.status with busy := true, done := false, err := false, errcode := 0#4 }
        errinfo := 0#32 }

/-- The complete step is enabled exactly when BUSY = 1: an engine's turn then ends with BUSY = 0 and DONE = 1, whatever
the pending word is, and otherwise changes nothing; without a schedule a pending command completes at the next step
(R201, R236; the schedule is the model's, log 2). -/
def Obligations.EngineCompletesExactlyWhenBusy : Prop :=
  ∀ s : State,
    (s.status.busy = true → (s.sched = [] ∨ ∃ rest, s.sched = .engine :: rest) →
      ∃ t, step s = .next t ∧ t.status.busy = false ∧ t.status.done = true ∧ t.cmd = s.cmd) ∧
    (s.status.busy = false → ∀ rest, s.sched = .engine :: rest → step s = .next { s with sched := rest })

/-! ## The commands' results -/

/-- KSCHED with KEY_LEN = 16 writes the 16 round keys and RK_VALID and nothing else of the core. In packed words round key
4g + j is KEYj rotated by g bytes, left, right, or each byte right by g bits, as KSCHED_ROT says (R102; R100, R101). -/
def Obligations.KschedDerivesTheSchedule : Prop :=
  ∀ s : State, s.keyLen = 16#32 →
    ∃ (rk : Vector Word 16) (h : List (BitVec 4)),
      exec .ksched s = .next { s with
        rk := rk
        status := { s.status with busy := false, done := true, rkValid := true }
        history := h } ∧
      ∀ (g j : Nat) (_ : g < 4) (hj : j < 4),
        rk[4 * g + j] =
          match s.params.rot with
          | .bytePosRight => s.key[j].rotateLeft (8 * g)
          | .bytePosLeft => s.key[j].rotateRight (8 * g)
          | .bitPerByteRight =>
            (s.key[j].extractLsb' 24 8).rotateRight g ++ (s.key[j].extractLsb' 16 8).rotateRight g ++
              (s.key[j].extractLsb' 8 8).rotateRight g ++ (s.key[j].extractLsb' 0 8).rotateRight g

/-- RENC r and RDEC r with a schedule do one round, or one reverse round, on FLOW with round key r, in packed words, and
change nothing else but STATUS (R110 to R113). -/
def Obligations.RencAndRdecDoOneRound : Prop :=
  ∀ (s : State) (r : Nat) (hr : r < 16), s.status.rkValid = true →
    exec (.renc r) s = .next ({ s with flow := packedEncRound s.flow s.rk[r] }.afterSuccess) ∧
    exec (.rdec r) s = .next ({ s with flow := packedDecRound s.flow s.rk[r] }.afterSuccess)

/-- BENC is the 16 rounds 0..15 and BDEC the 16 reverse rounds 15..0 on FLOW, in packed words, and they change nothing
else but STATUS (R114, R115, R103). -/
def Obligations.BencAndBdecDoSixteenRounds : Prop :=
  ∀ s : State, s.status.rkValid = true →
    exec .benc s =
      .next ({ s with flow := (List.finRange 16).foldl (fun f r => packedEncRound f s.rk[r]) s.flow }.afterSuccess) ∧
    exec .bdec s =
      .next ({ s with flow := (List.finRange 16).reverse.foldl (fun f r => packedDecRound f s.rk[r]) s.flow }.afterSuccess)

/-- MENC with a schedule and a message that fits writes ceil(L/16) blocks to DST, block b the encryption of the message's
bytes 16b..16b+15 with zeros past its end; the bytes of DST above are a new draw (log 5) and nothing else changes but
STATUS (R120, R123, R37). -/
def Obligations.MencEncryptsEveryBlock : Prop :=
  ∀ s : State, s.status.rkValid = true → s.srcLen.toNat ≤ s.params.maxlen →
    ∃ d : Memory,
      exec .menc s = .next ((s.withResult d (16 * ceilDiv s.srcLen.toNat 16) (s.drawn + 1)).afterSuccess) ∧
      (∀ b k, b < ceilDiv s.srcLen.toNat 16 → k < 16 →
        d.read (16 * b + k) = blockByte (encBlock s.roundKey (partition fun x =>
          if 16 * b + x < s.srcLen.toNat then s.src.read (16 * b + x) else 0#8)) k) ∧
      ∀ k, 16 * ceilDiv s.srcLen.toNat 16 ≤ k → d.read k = Config.freeByte s.drawn k

/-- MDEC and MDEC.NT with a schedule and a message of whole blocks that fits write the decrypted bytes to DST: all of them
under NOTRIM, else without the zero bytes that end the final block; nothing else changes but STATUS (R121, R124, R37). -/
def Obligations.MdecDecryptsEveryBlock : Prop :=
  ∀ (s : State) (nt : Bool), s.status.rkValid = true → s.srcLen.toNat ≤ s.params.maxlen → s.srcLen.toNat % 16 = 0 →
    let O : Nat → Byte := fun k =>
      blockByte (decBlock s.roundKey (partition fun x => s.src.read (16 * (k / 16) + x))) (k % 16)
    ∃ (d : Memory) (n : Nat),
      exec (.mdec nt) s = .next ((s.withResult d n (s.drawn + 1)).afterSuccess) ∧
      (if nt then n = s.srcLen.toNat else ZeroTrimmed O s.srcLen.toNat n) ∧
      (∀ k, k < n → d.read k = O k) ∧ ∀ k, n ≤ k → d.read k = Config.freeByte s.drawn k

/-- TRIMZ of whole blocks that fit copies SRC to DST without the zero bytes that end the final block; nothing else changes
but STATUS (R122, R124, R37). -/
def Obligations.TrimzTrimsTheFinalBlock : Prop :=
  ∀ s : State, s.srcLen.toNat ≤ s.params.maxlen → s.srcLen.toNat % 16 = 0 →
    ∃ (d : Memory) (n : Nat),
      exec .trimz s = .next ((s.withResult d n (s.drawn + 1)).afterSuccess) ∧
      ZeroTrimmed s.src.read s.srcLen.toNat n ∧
      (∀ k, k < n → d.read k = s.src.read k) ∧ ∀ k, n ≤ k → d.read k = Config.freeByte s.drawn k

/-- TCFG with two permutations of 1..n, 1 ≤ n ≤ NMAX, latches them with n, sets TP_VALID, and changes nothing else but
STATUS; the entries of FKI and SKI from n on keep their values (R140). -/
def Obligations.TcfgLatchesPermutations : Prop :=
  ∀ s : State, 1 ≤ s.tpN.toNat → s.tpN.toNat ≤ s.params.nmax → s.tpSkLen = s.tpN →
    IsPermutationKey s.tpN.toNat s.fk.read → IsPermutationKey s.tpN.toNat s.sk.read →
    ∃ a b : Table,
      exec .tcfg s = .next ({ s with
        ni := s.tpN, fki := a, ski := b, status := { s.status with tpValid := true } }.afterSuccess) ∧
      ∀ j, (a.read j = if j < s.tpN.toNat then s.fk.read j else s.fki.read j) ∧
        (b.read j = if j < s.tpN.toNat then s.sk.read j else s.ski.read j)

/-- TENC with latched keys and a text whose padded length M = R*N fits writes M bytes to DST: the character at row i and
column j of the first grid (PAD past the text's end) goes to its position under the two shuffles; nothing else changes
but STATUS (R141, R142, R37). -/
def Obligations.TencTransposesTheText : Prop :=
  ∀ s : State, s.status.tpValid = true → s.KeysLatched → s.srcLen.toNat ≤ s.params.maxlen →
    ceilDiv s.srcLen.toNat s.ni.toNat * s.ni.toNat ≤ s.params.maxlen →
    let R := ceilDiv s.srcLen.toNat s.ni.toNat
    ∃ d : Memory,
      exec .tenc s = .next ((s.withResult d (R * s.ni.toNat) (s.drawn + 1)).afterSuccess) ∧
      (∀ i j, i < R → j < s.ni.toNat →
        s.cipherPos R i j < R * s.ni.toNat ∧
        d.read (s.cipherPos R i j) =
          if i * s.ni.toNat + j < s.srcLen.toNat then s.src.read (i * s.ni.toNat + j) else pad) ∧
      ∀ k, R * s.ni.toNat ≤ k → d.read k = Config.freeByte s.drawn k

/-- TDEC and TDEC.NT with latched keys and a text of whole rows that fits write to DST the character that stands at each
cell's position: all of them under NOTRIM, else without the pad characters at both ends; nothing else changes but STATUS
(R141, R143, R145, R37). -/
def Obligations.TdecRestoresTheText : Prop :=
  ∀ (s : State) (nt : Bool), s.status.tpValid = true → s.KeysLatched → s.srcLen.toNat ≤ s.params.maxlen →
    s.srcLen.toNat % s.ni.toNat = 0 →
    let O : Nat → Byte := fun k =>
      s.src.read (s.cipherPos (s.srcLen.toNat / s.ni.toNat) (k / s.ni.toNat) (k % s.ni.toNat))
    ∃ (d : Memory) (a n : Nat),
      exec (.tdec nt) s = .next ((s.withResult d n (s.drawn + 1)).afterSuccess) ∧
      (if nt then a = 0 ∧ n = s.srcLen.toNat else PadStripped O s.srcLen.toNat a n) ∧
      (∀ k, k < n → d.read k = O (a + k)) ∧ ∀ k, n ≤ k → d.read k = Config.freeByte s.drawn k

/-- TRIMP of a text that fits copies SRC to DST without the pad characters at both ends; nothing else changes but STATUS
(R144, R145, R37). -/
def Obligations.TrimpStripsThePads : Prop :=
  ∀ s : State, s.srcLen.toNat ≤ s.params.maxlen →
    ∃ (d : Memory) (a n : Nat),
      exec .trimp s = .next ((s.withResult d n (s.drawn + 1)).afterSuccess) ∧
      PadStripped s.src.read s.srcLen.toNat a n ∧
      (∀ k, k < n → d.read k = s.src.read (a + k)) ∧ ∀ k, n ≤ k → d.read k = Config.freeByte s.drawn k

/-- MOVE copies DST[0..DST_LEN-1] to SRC, sets SRC_LEN, and changes nothing else but STATUS; the SRC bytes from DST_LEN on
keep their values (R161). NOP changes STATUS only (R160). -/
def Obligations.NopAndMoveComplete : Prop :=
  ∀ s : State,
    exec .nop s = .next s.afterSuccess ∧
    ∃ m : Memory,
      exec .move s = .next ({ s with src := m, srcLen := s.dstLen }.afterSuccess) ∧
      ∀ k, m.read k = if k < s.dstLen.toNat then s.dst.read k else s.src.read k

/-! ## Errors -/

/-- Without key material the commands that need it raise NoKeySchedule or NoPermutationKeys, whatever else is wrong, and
change only STATUS and ERRINFO (R112 to R115, R120, R121, R142, R143, R202, R204). -/
def Obligations.MissingKeyMaterialIsReportedFirst : Prop :=
  ∀ s : State,
    (s.status.rkValid = false → ∀ (r : Nat) (nt : Bool),
      exec (.renc r) s = .next (s.afterError 4#4 0#32) ∧ exec (.rdec r) s = .next (s.afterError 4#4 0#32) ∧
      exec .benc s = .next (s.afterError 4#4 0#32) ∧ exec .bdec s = .next (s.afterError 4#4 0#32) ∧
      exec .menc s = .next (s.afterError 4#4 0#32) ∧ exec (.mdec nt) s = .next (s.afterError 4#4 0#32)) ∧
    (s.status.tpValid = false → ∀ nt : Bool,
      exec .tenc s = .next (s.afterError 5#4 0#32) ∧ exec (.tdec nt) s = .next (s.afterError 5#4 0#32))

/-- KSCHED with another KEY_LEN raises InvalidKeyLength with it and keeps the old schedule (R100, R202, R203). -/
def Obligations.KschedRejectsOtherKeyLengths : Prop :=
  ∀ s : State, s.keyLen ≠ 16#32 → exec .ksched s = .next (s.afterError 1#4 s.keyLen)

/-- TCFG reports its first failing check in order: the range of TP_N, TP_SKLEN = TP_N, the first offending index of FK,
the first offending index of SK; the old keys stay in force (R140, R202, R204). -/
def Obligations.TcfgReportsTheFirstOffence : Prop :=
  ∀ s : State,
    ((s.tpN.toNat = 0 ∨ s.params.nmax < s.tpN.toNat) → exec .tcfg s = .next (s.afterError 6#4 0x20000#32)) ∧
    (1 ≤ s.tpN.toNat → s.tpN.toNat ≤ s.params.nmax →
      (s.tpSkLen ≠ s.tpN → exec .tcfg s = .next (s.afterError 6#4 0x30000#32)) ∧
      (s.tpSkLen = s.tpN →
        (∀ j, FirstOffendingAt s.tpN.toNat s.fk.read j →
          exec .tcfg s = .next (s.afterError 6#4 (BitVec.ofNat 32 j))) ∧
        (IsPermutationKey s.tpN.toNat s.fk.read → ∀ j, FirstOffendingAt s.tpN.toNat s.sk.read j →
          exec .tcfg s = .next (s.afterError 6#4 (0x10000#32 ||| BitVec.ofNat 32 j)))))

/-- A message longer than MAXLEN raises LengthOverflow with its length, once the key material is there and before the
checks of its length (R120 to R122, R142 to R144, R202, R204). -/
def Obligations.OverlongMessagesRaiseLengthOverflow : Prop :=
  ∀ s : State, s.params.maxlen < s.srcLen.toNat →
    (s.status.rkValid = true → exec .menc s = .next (s.afterError 8#4 s.srcLen) ∧
      ∀ nt, exec (.mdec nt) s = .next (s.afterError 8#4 s.srcLen)) ∧
    (s.status.tpValid = true → exec .tenc s = .next (s.afterError 8#4 s.srcLen) ∧
      ∀ nt, exec (.tdec nt) s = .next (s.afterError 8#4 s.srcLen)) ∧
    exec .trimz s = .next (s.afterError 8#4 s.srcLen) ∧ exec .trimp s = .next (s.afterError 8#4 s.srcLen)

/-- A message that fits but is not of whole blocks, or not of whole rows, raises InvalidCiphertextLength or
KeyLengthMismatch with its length (R121, R122, R143, R202, R204). -/
def Obligations.RaggedMessagesRaiseTheirLengthError : Prop :=
  ∀ s : State, s.srcLen.toNat ≤ s.params.maxlen →
    (s.srcLen.toNat % 16 ≠ 0 →
      (s.status.rkValid = true → ∀ nt, exec (.mdec nt) s = .next (s.afterError 2#4 s.srcLen)) ∧
      exec .trimz s = .next (s.afterError 2#4 s.srcLen)) ∧
    (s.srcLen.toNat % s.ni.toNat ≠ 0 → s.status.tpValid = true →
      ∀ nt, exec (.tdec nt) s = .next (s.afterError 3#4 s.srcLen))

/-- TENC whose padded length M exceeds MAXLEN raises LengthOverflow with M, though the text itself fits (R142, R202). -/
def Obligations.TencPaddingOverflowRaisesLengthOverflow : Prop :=
  ∀ s : State, s.status.tpValid = true → s.srcLen.toNat ≤ s.params.maxlen →
    s.params.maxlen < ceilDiv s.srcLen.toNat s.ni.toNat * s.ni.toNat →
    exec .tenc s =
      .next (s.afterError 8#4 (BitVec.ofNat 32 (ceilDiv s.srcLen.toNat s.ni.toNat * s.ni.toNat)))

/-- A complete step that raises an error writes only STATUS (BUSY, DONE, ERR, ERRCODE) and ERRINFO, beside the model's
history: no result, no key material, for every pending word (R203). -/
def Obligations.FailingCommandsWriteNoResult : Prop :=
  ∀ s t : State, s.status.err = false → s.completeStep = .next t → t.status.err = true →
    t = { s with
      status := { s.status with busy := false, done := true, err := true, errcode := t.status.errcode }
      errinfo := t.errinfo
      history := t.history }

/-! ## Frames -/

/-- What a round command leaves: everything but FLOW, the completion flags, ERRINFO and the history; every byte of SRC and
of DST reads as before (R42, R112 to R115, R201). -/
def Obligations.RoundCommandsFrame : Prop :=
  ∀ (i : Instr) (s t : State), ((∃ r, i = .renc r) ∨ (∃ r, i = .rdec r) ∨ i = .benc ∨ i = .bdec) →
    exec i s = .next t →
    t = { s with
      flow := t.flow
      status := { busy := false, done := true, err := t.status.err, errcode := t.status.errcode,
                  rkValid := s.status.rkValid, tpValid := s.status.tpValid }
      errinfo := t.errinfo
      history := t.history } ∧
    ∀ k, t.src.read k = s.src.read k ∧ t.dst.read k = s.dst.read k

/-- What a command with a result in DST leaves: everything but DST, DST_LEN, the completion flags, ERRINFO, the history
and the count of draws; every byte of SRC reads as before; if the command fails every byte of DST reads as before
(R42, R120 to R122, R142 to R144, R201, R203). -/
def Obligations.ResultCommandsFrame : Prop :=
  ∀ (i : Instr) (s t : State),
    (i = .menc ∨ (∃ nt, i = .mdec nt) ∨ i = .trimz ∨ i = .tenc ∨ (∃ nt, i = .tdec nt) ∨ i = .trimp) →
    exec i s = .next t →
    t = { s with
      dst := t.dst
      dstLen := t.dstLen
      drawn := t.drawn
      status := { busy := false, done := true, err := t.status.err, errcode := t.status.errcode,
                  rkValid := s.status.rkValid, tpValid := s.status.tpValid }
      errinfo := t.errinfo
      history := t.history } ∧
    (∀ k, t.src.read k = s.src.read k) ∧
    (s.status.err = false → t.status.err = true → t.dstLen = s.dstLen ∧ ∀ k, t.dst.read k = s.dst.read k)

/-- What KSCHED and TCFG leave: KSCHED everything but RK and RK_VALID, TCFG everything but NI, FKI, SKI and TP_VALID, beside
the completion flags, ERRINFO and the history; every byte of SRC and of DST reads as before (R42, R100, R140, R201). -/
def Obligations.KeyCommandsFrame : Prop :=
  ∀ s t : State,
    (exec .ksched s = .next t →
      t = { s with
        rk := t.rk
        status := { busy := false, done := true, err := t.status.err, errcode := t.status.errcode,
                    rkValid := t.status.rkValid, tpValid := s.status.tpValid }
        errinfo := t.errinfo
        history := t.history } ∧
      ∀ k, t.src.read k = s.src.read k ∧ t.dst.read k = s.dst.read k) ∧
    (exec .tcfg s = .next t →
      t = { s with
        ni := t.ni
        fki := t.fki
        ski := t.ski
        status := { busy := false, done := true, err := t.status.err, errcode := t.status.errcode,
                    rkValid := s.status.rkValid, tpValid := t.status.tpValid }
        errinfo := t.errinfo
        history := t.history } ∧
      ∀ k, t.src.read k = s.src.read k ∧ t.dst.read k = s.dst.read k)

/-- What NOP and MOVE leave: NOP everything but BUSY, DONE and the history; MOVE also writes SRC below DST_LEN and SRC_LEN.
Every byte of DST, and every byte of SRC outside MOVE's, reads as before (R42, R160, R161, R201). -/
def Obligations.BufferCommandsFrame : Prop :=
  ∀ s t : State,
    (exec .nop s = .next t →
      t = { s with status := { s.status with busy := false, done := true }, history := t.history } ∧
      ∀ k, t.src.read k = s.src.read k ∧ t.dst.read k = s.dst.read k) ∧
    (exec .move s = .next t →
      t = { s with
        src := t.src
        srcLen := s.dstLen
        status := { s.status with busy := false, done := true }
        history := t.history } ∧
      (∀ k, t.dst.read k = s.dst.read k) ∧ ∀ k, s.dstLen.toNat ≤ k → t.src.read k = s.src.read k)

/-! ## The whole machine -/

/-- The invariant holds after reset (R43, R230). -/
def Obligations.ResetMeetsTheInvariant : Prop := State.reset.Inv

/-- Every step of every agent keeps the invariant, from every state that meets it (R24, R25, R30, R36 to R38, R202). -/
def Obligations.EveryStepKeepsTheInvariant : Prop := ∀ s t : State, s.Inv → step s = .next t → t.Inv

/-- RK_VALID and TP_VALID: no step but a reset clears one; only a successful KSCHED sets RK_VALID and only a successful
TCFG sets TP_VALID; a failing one leaves the old bit and the old key material, and the Host writes neither (R39). -/
def Obligations.ValidBitsAreSetByTheirCommandAndClearedByReset : Prop :=
  ∀ s t : State, s.mover ≠ .platformReset → step s = .next t →
    (s.status.rkValid = true → t.status.rkValid = true) ∧
    (s.status.tpValid = true → t.status.tpValid = true) ∧
    (s.status.rkValid = false → t.status.rkValid = true →
      s.mover = .engine ∧ s.status.busy = true ∧ s.cmd = 0x00000001#32 ∧ s.keyLen = 16#32) ∧
    (s.status.tpValid = false → t.status.tpValid = true →
      s.mover = .engine ∧ s.status.busy = true ∧ s.cmd = 0x00000008#32 ∧
        IsPermutationKey s.tpN.toNat s.fk.read ∧ IsPermutationKey s.tpN.toNat s.sk.read)

/-- Key material is read-only between its latching commands: apart from reset, RK changes only in a complete step of
KSCHED, and NI, FKI and SKI only in one of TCFG; no Host write reaches them (R33, R38, R64). -/
def Obligations.KeyMaterialChangesOnlyWhenLatched : Prop :=
  ∀ s t : State, s.mover ≠ .platformReset → step s = .next t →
    (t.rk ≠ s.rk → s.mover = .engine ∧ s.status.busy = true ∧ s.cmd = 0x00000001#32 ∧ s.keyLen = 16#32) ∧
    ((t.ni ≠ s.ni ∨ t.fki ≠ s.fki ∨ t.ski ≠ s.ski) →
      s.mover = .engine ∧ s.status.busy = true ∧ s.cmd = 0x00000008#32 ∧ s.tpSkLen = s.tpN)

/-- Who writes what: a Host turn leaves RK, the latched keys, DST, DST_LEN and the valid bits alone, and changes STATUS and
ERRINFO only by issuing a command; an engine's turn leaves CMD and the staging registers and tables alone, and SRC and
SRC_LEN unless the command is MOVE (R20, R23, R36, R42). -/
def Obligations.HostAndEngineWriteTheirOwnState : Prop :=
  ∀ s t : State, step s = .next t →
    (s.mover = .host →
      t.rk = s.rk ∧ t.ni = s.ni ∧ t.fki = s.fki ∧ t.ski = s.ski ∧ t.dst = s.dst ∧ t.dstLen = s.dstLen ∧
      t.history = s.history ∧
      ((t.status = s.status ∧ t.cmd = s.cmd ∧ t.errinfo = s.errinfo) ∨
        (s.status.busy = false ∧ t.status.busy = true ∧ t.status.done = false ∧ t.status.err = false ∧
          t.status.errcode = 0#4 ∧ t.status.rkValid = s.status.rkValid ∧ t.status.tpValid = s.status.tpValid ∧
          t.errinfo = 0#32))) ∧
    (s.mover = .engine →
      t.cmd = s.cmd ∧ t.keyLen = s.keyLen ∧ t.key = s.key ∧ t.tpN = s.tpN ∧ t.tpSkLen = s.tpSkLen ∧ t.fk = s.fk ∧
      t.sk = s.sk ∧ t.hostProg = s.hostProg ∧ t.hostVar = s.hostVar ∧
      (s.cmd ≠ 0x0000000D#32 → t.src = s.src ∧ t.srcLen = s.srcLen))

/-- No completion is forgotten: every complete step puts its ERRCODE at the head of the history, and no other step touches
the history (R207, D22; the history is the model's, log 11). -/
def Obligations.HistoryRecordsEveryCompletion : Prop :=
  ∀ s t : State, step s = .next t →
    (s.mover = .engine ∧ s.status.busy = true → t.history = t.status.errcode :: s.history) ∧
    (¬ (s.mover = .engine ∧ s.status.busy = true) → t.history = s.history)

/-! ## The Host's side -/

/-- While BUSY = 1 every host write is ignored; a read of ID, CMD or STATUS returns the exact value; a read of any other
offset returns a free value, a new one for each read (R54, U2). -/
def Obligations.BusyWindow : Prop :=
  ∀ s : State, s.status.busy = true →
    (∀ off v, s.busWrite off v = s) ∧
    s.busRead 0x000 = (0x434E5901#32, s) ∧ s.busRead 0x004 = (s.cmd, s) ∧ s.busRead 0x008 = (s.status.toWord, s) ∧
    ∀ off, off % 4 = 0 → 0x00C ≤ off →
      s.busRead off = (Config.freeWord s.drawn off, { s with drawn := s.drawn + 1 })

/-- Unmapped offsets read 0 and ignore writes; read-only registers ignore writes; reads change nothing of the core (beside
the model's count of draws); only a write to CMD does more than store its word (R55). -/
def Obligations.UnmappedAndReadOnlyOffsets : Prop :=
  ∀ (s : State) (off : Nat) (v : Word), off % 4 = 0 → off < 0x30000 →
    (s.busRead off).2 = { s with drawn := (s.busRead off).2.drawn } ∧
    (((0x24 ≤ off ∧ off < 0x30) ∨ (0x50 ≤ off ∧ off < 0x80) ∨ (0xC0 ≤ off ∧ off < 0x1000) ∨
        (0x3000 ≤ off ∧ off < 0x10000) ∨
        (0x1000 ≤ off ∧ off < 0x2000 ∧ s.params.nmax ≤ (off - 0x1000) / 4) ∨
        (0x2000 ≤ off ∧ off < 0x3000 ∧ s.params.nmax ≤ (off - 0x2000) / 4) ∨
        (0x10000 ≤ off ∧ off < 0x20000 ∧ s.params.maxlen ≤ 4 * ((off - 0x10000) / 4)) ∨
        (0x20000 ≤ off ∧ s.params.maxlen ≤ 4 * ((off - 0x20000) / 4))) →
      s.busWrite off v = s ∧ (s.status.busy = false → (s.busRead off).1 = 0#32)) ∧
    ((off = 0x00 ∨ off = 0x08 ∨ off = 0x0C ∨ off = 0x20 ∨ (0x80 ≤ off ∧ off < 0xC0) ∨ 0x20000 ≤ off) →
      s.busWrite off v = s) ∧
    (off ≠ 0x004 → (s.busWrite off v).status = s.status ∧ (s.busWrite off v).cmd = s.cmd ∧
      (s.busWrite off v).errinfo = s.errinfo)

/-- Reads are idempotent, R54's apart: a read, whatever read comes between, gives the same value again. So are writes, CMD's
apart (R56). -/
def Obligations.TransactionsAreIdempotent : Prop :=
  ∀ (s : State) (off : Nat) (v : Word), off % 4 = 0 → off < 0x30000 →
    ((s.status.busy = false ∨ off < 0x0C) → ∀ off', ((s.busRead off').2.busRead off).1 = (s.busRead off).1) ∧
    (off ≠ 0x004 → (s.busWrite off v).busWrite off v = s.busWrite off v)

/-- The window is memory where it is read and write: an idle host reads back the word it wrote, and a write other than to
CMD leaves the value at every other offset (R26 to R29, R31, R32, R34 to R36, R61). -/
def Obligations.WindowReadAfterWrite : Prop :=
  ∀ (s : State) (off : Nat) (v : Word), s.status.busy = false → off % 4 = 0 → off < 0x30000 →
    (((0x10 ≤ off ∧ off < 0x20) ∨ (0x30 ≤ off ∧ off < 0x50) ∨
        (0x1000 ≤ off ∧ off < 0x2000 ∧ (off - 0x1000) / 4 < s.params.nmax) ∨
        (0x2000 ≤ off ∧ off < 0x3000 ∧ (off - 0x2000) / 4 < s.params.nmax) ∨
        (0x10000 ≤ off ∧ off < 0x20000 ∧ off - 0x10000 < s.params.maxlen)) →
      ((s.busWrite off v).busRead off).1 = v) ∧
    (off ≠ 0x004 → ∀ off', off' % 4 = 0 → off' < 0x30000 → off' ≠ off →
      ((s.busWrite off v).busRead off').1 = (s.busRead off').1)

/-- Byte lanes are little-endian: byte 4q + b of KEY, SRC and DST is bits 8b+7:8b of word q (R57, R31, R36, R37). -/
def Obligations.BytesStandInLittleEndianLanes : Prop :=
  ∀ (s : State) (q b : Nat) (v : Word), s.status.busy = false → b < 4 →
    (q < 4 → (s.busWrite (0x30 + 4 * q) v).keyByte (4 * q + b) = v.extractLsb' (8 * b) 8) ∧
    (4 * q < s.params.maxlen → 4 * q < 0x10000 →
      (s.busWrite (0x10000 + 4 * q) v).src.read (4 * q + b) = v.extractLsb' (8 * b) 8 ∧
      (s.busRead (0x10000 + 4 * q)).1.extractLsb' (8 * b) 8 = s.src.read (4 * q + b) ∧
      (s.busRead (0x20000 + 4 * q)).1.extractLsb' (8 * b) 8 = s.dst.read (4 * q + b))

/-- The places of the STATUS fields; every reserved bit reads 0 (R24). -/
def Obligations.StatusFieldPlaces : Prop :=
  ∀ t : Status,
    t.toWord.getLsbD 0 = t.busy ∧ t.toWord.getLsbD 1 = t.done ∧ t.toWord.getLsbD 2 = t.err ∧
    t.toWord.extractLsb' 8 4 = t.errcode ∧ t.toWord.getLsbD 16 = t.rkValid ∧ t.toWord.getLsbD 17 = t.tpValid ∧
    ∀ n, ((3 ≤ n ∧ n < 8) ∨ (12 ≤ n ∧ n < 16) ∨ 18 ≤ n) → t.toWord.getLsbD n = false

/-- A transaction that is not 32 bits wide or not aligned, and one outside the window, is refused: the Host has no step for
it (R53, R50, U1). -/
def Obligations.UnsupportedTransactionsAreRefused : Prop :=
  ∀ (s : State) (rest : List HostOp) (addr width : Nat) (v : Word), s.mover = .host →
    (s.hostProg = .raw (.read addr width) :: rest ∨ s.hostProg = .raw (.write addr width v) :: rest) →
    (s.params.base ≤ addr → addr < s.params.base + 0x30000 → (width ≠ 32 ∨ (addr - s.params.base) % 4 ≠ 0) →
      step s = .refused .unsupportedTransaction) ∧
    ((addr < s.params.base ∨ s.params.base + 0x30000 ≤ addr) → step s = .refused .outsideWindow)

/-- `DO cmd` of an idle host without a schedule is three steps: the issue, the complete step, and the read of STATUS that
ends the poll; the command's results are then visible (R77, R61, R232). -/
def Obligations.DoRunsTheCommand : Prop :=
  ∀ (s t : State) (i : Instr) (rest : List HostOp), i.WellFormed → s.status.busy = false → s.sched = [] →
    s.hostProg = [.wr 0x004 (encode i), .wait] ++ rest →
    exec i { s with
      cmd := encode i
      status := { s.status with busy := true, done := false, err := false, errcode := 0#4 }
      errinfo := 0#32
      hostProg := .wait :: rest } = .next t →
    Sys2Proof.core.run 3 s = .next { t with hostProg := rest, hostVar := t.status.toWord }

/-- A host line's turn: WR writes, RD reads into t, WAIT polls STATUS and goes on only when it saw BUSY = 0, CHECK stops the
host program on another value (R77; the stop is the model's, log 10). -/
def Obligations.HostLinesDoTheirTransaction : Prop :=
  ∀ (s : State) (off : Nat) (v : Word) (rest : List HostOp), s.mover = .host → off % 4 = 0 → off < 0x30000 →
    (s.hostProg = .wr off v :: rest →
      step s = .next { (s.popTurn.busWrite off v) with hostProg := rest }) ∧
    (s.hostProg = .rd off :: rest →
      step s = .next { (s.popTurn.busRead off).2 with hostProg := rest, hostVar := (s.popTurn.busRead off).1 }) ∧
    (s.hostProg = .wait :: rest →
      step s = .next { s.popTurn with
        hostProg := (if s.status.busy then .wait :: rest else rest)
        hostVar := s.status.toWord }) ∧
    (s.hostProg = .check off v :: rest →
      step s = if (s.popTurn.busRead off).1 = v then
        .next { (s.popTurn.busRead off).2 with hostProg := rest, hostVar := v }
      else .fault .assertFailed)

/-- A reset gives every piece of the core its value of R43: the registers are 0, STATUS is idle with no key material, so a
pending command is abandoned and a poll ends with DONE = 0; RK, FK, SK, SRC and DST are unspecified (R43, R230, R238). The
rest is the model's: the unspecified contents read as new draws (logs 4, 6), numbered from the count of draws on (log 8), and
the parameters, the history, the schedule and the Host's program and variable are kept (log 15). -/
def Obligations.ResetGivesTheResetValues : Prop :=
  ∀ (s : State) (rest : List Agent), s.sched = .platformReset :: rest →
    ∃ t, step s = .next t ∧ t.sched = rest ∧ t.params = s.params ∧ t.history = s.history ∧
      t.hostProg = s.hostProg ∧ t.hostVar = s.hostVar ∧
      t.status = ⟨false, false, false, 0#4, false, false⟩ ∧ t.cmd = 0#32 ∧ t.errinfo = 0#32 ∧ t.keyLen = 0#32 ∧
      t.tpN = 0#32 ∧ t.tpSkLen = 0#32 ∧ t.srcLen = 0#32 ∧ t.dstLen = 0#32 ∧
      (∀ p : Fin 4, t.key[p] = 0#32 ∧ t.flow[p] = 0#32) ∧
      (t.busRead 0x000).1 = 0x434E5901#32 ∧ (t.busRead 0x008).1 = 0#32 ∧
      (∀ r, r < 16 → (t.busRead (0x80 + 4 * r)).1 = Config.freeWord (s.drawn + 6) r) ∧
      ∀ k, t.src.read k = Config.freeByte s.drawn k ∧ t.dst.read k = Config.freeByte (s.drawn + 1) k ∧
        t.fk.read k = Config.freeWord (s.drawn + 2) k ∧ t.sk.read k = Config.freeWord (s.drawn + 3) k

/-! ## Laws of the ciphers -/

/-- DEC_ROUND undoes ENC_ROUND for all flows and keys, and so BDEC undoes BENC under the same schedule (R116). -/
def Obligations.DecryptionUndoesEncryption : Prop :=
  (∀ (f : Block) (k : Flow), decRound (encRound f k) k = f) ∧
  ∀ s t u : State, s.status.rkValid = true → exec .benc s = .next t → exec .bdec t = .next u → u.flow = s.flow

/-- The cipher is affine: the fifth power of Λ is the identity, Λ is linear, BENC(P) = Λ(P) ^ BENC(0), and
BDEC(C) = Λ⁻¹(C ^ BENC(0)), for every schedule (R118). -/
def Obligations.BlockCipherIsAffine : Prop :=
  (∀ b : Block, lambdaMap (lambdaMap (lambdaMap (lambdaMap (lambdaMap b)))) = b ∧ lambdaInv (lambdaMap b) = b) ∧
  (∀ a b : Block, lambdaMap (xorBlock a b) = xorBlock (lambdaMap a) (lambdaMap b)) ∧
  ∀ (rk : Nat → Flow) (b : Block),
    encBlock rk b = xorBlock (lambdaMap b) (encBlock rk zeroBlock) ∧
    decBlock rk b = lambdaInv (xorBlock b (encBlock rk zeroBlock))

/-- Lanes do not mix: lane i of every flow of an encrypted or decrypted block depends only on lane i of the block's flows
and of the round keys (R119). -/
def Obligations.LanesDoNotMix : Prop :=
  ∀ (rk rk' : Nat → Flow) (b b' : Block) (i : Nat), i < 4 → (∀ r, r < 16 → lane (rk r) i = lane (rk' r) i) →
    (lane b.f1 i = lane b'.f1 i ∧ lane b.f2 i = lane b'.f2 i ∧ lane b.f3 i = lane b'.f3 i ∧ lane b.f4 i = lane b'.f4 i) →
    ∀ g ∈ [encBlock, decBlock],
      lane (g rk b).f1 i = lane (g rk' b').f1 i ∧ lane (g rk b).f2 i = lane (g rk' b').f2 i ∧
      lane (g rk b).f3 i = lane (g rk' b').f3 i ∧ lane (g rk b).f4 i = lane (g rk' b').f4 i

/-- The length laws of the block cipher, for the commands that succeed (R125). -/
def Obligations.BlockCipherLengths : Prop :=
  ∀ s t : State, s.params.Legal → s.status.err = false → t.status.err = false →
    (exec .menc s = .next t → t.dstLen.toNat = ceilDiv s.srcLen.toNat 16 * 16) ∧
    (exec (.mdec false) s = .next t → 0 < s.srcLen.toNat →
      s.srcLen.toNat - 16 ≤ t.dstLen.toNat ∧ t.dstLen.toNat ≤ s.srcLen.toNat) ∧
    (exec (.mdec true) s = .next t → t.dstLen = s.srcLen)

/-- The round trip MENC, MOVE, MDEC under one schedule: with P the message padded with zeros to whole blocks, the result is
P without the zeros that end its final block, hence the message itself when it is empty or ends in a nonzero byte; with
MDEC.NT it is P (R126). -/
def Obligations.EncryptedMessageIsRecovered : Prop :=
  ∀ (s t u v : State) (nt : Bool), s.params.Legal → s.status.rkValid = true → s.srcLen.toNat ≤ s.params.maxlen →
    exec .menc s = .next t → exec .move t = .next u → exec (.mdec nt) u = .next v →
    let L := s.srcLen.toNat
    let P : Nat → Byte := fun k => if k < L then s.src.read k else 0#8
    (if nt then v.dstLen.toNat = 16 * ceilDiv L 16 else ZeroTrimmed P (16 * ceilDiv L 16) v.dstLen.toNat) ∧
    (∀ k, k < v.dstLen.toNat → v.dst.read k = P k) ∧
    (nt = false → (L = 0 ∨ s.src.read (L - 1) ≠ 0#8) → v.dstLen = s.srcLen)

/-- The grid shuffles are inverse, and so TENC, MOVE, TDEC.NT gives the text and its pads back, and TDEC the text itself when
it is empty or neither starts nor ends with the pad character (R146). -/
def Obligations.TransposedTextIsRecovered : Prop :=
  (∀ (s : State) (R : Nat) (G : Nat → Nat → Byte), s.KeysLatched →
    let N := s.ni.toNat
    unCol R N s.column (unRow R N s.row (rowShuf R N s.row (regrid2 R (colShuf R N s.column G)))) = flatGrid R N G) ∧
  ∀ (s t u v : State) (nt : Bool), s.params.Legal → s.status.tpValid = true → s.KeysLatched →
    s.srcLen.toNat ≤ s.params.maxlen → ceilDiv s.srcLen.toNat s.ni.toNat * s.ni.toNat ≤ s.params.maxlen →
    exec .tenc s = .next t → exec .move t = .next u → exec (.tdec nt) u = .next v →
    let L := s.srcLen.toNat
    let M := ceilDiv L s.ni.toNat * s.ni.toNat
    (nt = true → v.dstLen.toNat = M ∧ ∀ k, k < M → v.dst.read k = if k < L then s.src.read k else pad) ∧
    (nt = false → (L = 0 ∨ (s.src.read 0 ≠ pad ∧ s.src.read (L - 1) ≠ pad)) →
      v.dstLen = s.srcLen ∧ ∀ k, k < L → v.dst.read k = s.src.read k)

/-- The length law of the transposition, for the commands that succeed (R147). -/
def Obligations.TranspositionLengths : Prop :=
  ∀ s t : State, s.params.Legal → s.status.err = false → t.status.err = false →
    (exec .tenc s = .next t → t.dstLen.toNat = ceilDiv s.srcLen.toNat s.ni.toNat * s.ni.toNat) ∧
    (exec (.tdec true) s = .next t → s.KeysLatched → t.dstLen = s.srcLen) ∧
    (exec (.tdec false) s = .next t → s.KeysLatched → t.dstLen.toNat ≤ s.srcLen.toNat)

/-- Transposition moves characters and never changes them: the bytes of a successful TENC are a rearrangement of the text's
and M - L pads, and those of a successful TDEC.NT of the text's (R148). -/
def Obligations.TranspositionOnlyMovesCharacters : Prop :=
  ∀ s t : State, s.params.Legal → s.KeysLatched → s.status.err = false → t.status.err = false →
    (exec .tenc s = .next t →
      (t.dst.readRange 0 t.dstLen.toNat).Perm
        (s.src.readRange 0 s.srcLen.toNat ++ List.replicate (t.dstLen.toNat - s.srcLen.toNat) pad)) ∧
    (exec (.tdec true) s = .next t →
      (t.dst.readRange 0 t.dstLen.toNat).Perm (s.src.readRange 0 s.srcLen.toNat))

/-- The trims stand alone: MDEC.NT, MOVE, TRIMZ ends with MDEC's DST and DST_LEN, and TDEC.NT, MOVE, TRIMP with TDEC's, when
the decryption succeeds (R122, R144, R161). -/
def Obligations.TrimCommandsFinishTheDecryptions : Prop :=
  ∀ s a t u v : State, s.params.Legal → s.status.err = false → a.status.err = false →
    (exec (.mdec false) s = .next a → exec (.mdec true) s = .next t → exec .move t = .next u → exec .trimz u = .next v →
      v.dstLen = a.dstLen ∧ ∀ k, k < a.dstLen.toNat → v.dst.read k = a.dst.read k) ∧
    (s.KeysLatched →
      exec (.tdec false) s = .next a → exec (.tdec true) s = .next t → exec .move t = .next u → exec .trimp u = .next v →
      v.dstLen = a.dstLen ∧ ∀ k, k < a.dstLen.toNat → v.dst.read k = a.dst.read k)
end

