-- ==== Sys2Proof/Laws/Memory.lean ====
section
/-! SUPPORT. Buffers and tables: a read after a write, and every operation keeps the canonical form. -/

namespace Sys2Proof.Machine

variable {α : Type}

/-! ## One entry -/

/-- Reading after writing one entry. -/
theorem findCell_putCell (cs : List (Nat × α)) (k : Nat) (v : α) (j : Nat) :
    findCell (putCell cs k v) j = if k = j then some v else findCell cs j := by
  induction cs with
  | nil => simp [putCell, findCell]
  | cons c rest ih =>
    unfold putCell
    split
    · simp [findCell]
    split
    · rename_i h
      simp only [findCell, ← h]
      split <;> rfl
    · rename_i h1 h2
      simp only [findCell, ih]
      by_cases hc : c.1 = j
      · have : k ≠ j := by omega
        simp [hc, this]
      · simp [hc]

/-- The keys after writing one entry. -/
theorem mem_putCell {cs : List (Nat × α)} {k : Nat} {v : α} {c : Nat × α} (h : c ∈ putCell cs k v) :
    c = (k, v) ∨ c ∈ cs := by
  induction cs with
  | nil => exact .inl (by simpa [putCell] using h)
  | cons d rest ih =>
    unfold putCell at h
    split at h
    · simpa using h
    split at h
    · rcases List.mem_cons.mp h with h | h
      · exact .inl h
      · exact .inr (List.mem_cons_of_mem _ h)
    · rcases List.mem_cons.mp h with h | h
      · exact .inr (h ▸ List.mem_cons_self)
      · exact (ih h).imp id (List.mem_cons_of_mem _)

/-- Writing one entry keeps the canonical form. -/
theorem putCell_wf {cs : List (Nat × α)} (h : CellsWf cs) (k : Nat) (v : α) : CellsWf (putCell cs k v) := by
  induction cs with
  | nil => exact List.pairwise_singleton _ _
  | cons c rest ih =>
    have hr : CellsWf rest := by
      simp only [CellsWf, List.map_cons, List.pairwise_cons] at h
      exact h.2
    have hc : ∀ d ∈ rest, c.1 < d.1 := by
      simp only [CellsWf, List.map_cons, List.pairwise_cons] at h
      intro d hd
      exact h.1 _ (List.mem_map_of_mem hd)
    unfold putCell
    split
    · rename_i hk
      simp only [CellsWf, List.map_cons, List.pairwise_cons]
      refine ⟨?_, ?_, hr⟩
      · intro a ha
        rcases List.mem_cons.mp ha with rfl | ha
        · exact hk
        · obtain ⟨d, hd, rfl⟩ := List.mem_map.mp ha
          exact lt_trans hk (hc d hd)
      · intro a ha
        obtain ⟨d, hd, rfl⟩ := List.mem_map.mp ha
        exact hc d hd
    split
    · rename_i hk
      simp only [CellsWf, List.map_cons, List.pairwise_cons]
      refine ⟨?_, hr⟩
      intro a ha
      obtain ⟨d, hd, rfl⟩ := List.mem_map.mp ha
      exact hk ▸ hc d hd
    · rename_i h1 h2
      simp only [CellsWf, List.map_cons, List.pairwise_cons]
      refine ⟨?_, ih hr⟩
      intro a ha
      obtain ⟨d, hd, rfl⟩ := List.mem_map.mp ha
      rcases mem_putCell hd with rfl | hd
      · show c.1 < k
        omega
      · exact hc d hd

/-! ## A range of entries -/

/-- Reading after writing a range of entries. -/
theorem findCell_putRange (vs : List α) : ∀ (cs : List (Nat × α)) (k j : Nat),
    findCell (putRange cs k vs) j = if k ≤ j ∧ j < k + vs.length then vs[j - k]? else findCell cs j := by
  induction vs with
  | nil =>
    intro cs k j
    have : ¬ (k ≤ j ∧ j < k) := by omega
    simp [putRange, this]
  | cons v vs ih =>
    intro cs k j
    rw [putRange, ih, findCell_putCell, List.length_cons]
    by_cases h1 : k = j
    · subst h1
      simp
    by_cases h2 : k + 1 ≤ j ∧ j < k + 1 + vs.length
    · have h3 : k ≤ j ∧ j < k + (vs.length + 1) := by omega
      have h4 : j - k = (j - (k + 1)) + 1 := by omega
      rw [if_pos h2, if_pos h3, h4, List.getElem?_cons_succ]
    · have h3 : ¬ (k ≤ j ∧ j < k + (vs.length + 1)) := by omega
      rw [if_neg h2, if_neg h3, if_neg h1]

theorem mem_putRange {vs : List α} : ∀ {cs : List (Nat × α)} {k : Nat} {c : Nat × α}, c ∈ putRange cs k vs →
    (k ≤ c.1 ∧ c.1 < k + vs.length) ∨ c ∈ cs := by
  induction vs with
  | nil => exact fun h => .inr h
  | cons v vs ih =>
    intro cs k c h
    rcases ih h with h | h
    · left
      simp only [List.length_cons]
      omega
    · rcases mem_putCell h with rfl | h
      · left
        simp
      · exact .inr h

theorem putRange_wf (vs : List α) : ∀ {cs : List (Nat × α)} (k : Nat), CellsWf cs → CellsWf (putRange cs k vs) := by
  induction vs with
  | nil => exact fun k h => h
  | cons v vs ih => exact fun k h => ih (k + 1) (putCell_wf h k v)

/-! ## A fresh listing -/

/-- A fresh listing reads as the list it was made from. -/
theorem findCell_cellsFrom (vs : List α) : ∀ (k j : Nat),
    findCell (cellsFrom k vs) j = if k ≤ j then vs[j - k]? else none := by
  induction vs with
  | nil => simp [cellsFrom, findCell]
  | cons v vs ih =>
    intro k j
    rw [cellsFrom, findCell, ih]
    by_cases h1 : k = j
    · subst h1
      simp
    by_cases h2 : k + 1 ≤ j
    · have h3 : k ≤ j := by omega
      have h4 : j - k = (j - (k + 1)) + 1 := by omega
      simp [h1, h2, h3, h4]
    · have h3 : ¬ k ≤ j := by omega
      simp [h1, h2, h3]

@[simp] theorem cellsFrom_keys (vs : List α) : ∀ k : Nat, (cellsFrom k vs).map Prod.fst = List.range' k vs.length := by
  induction vs with
  | nil => exact fun k => rfl
  | cons v vs ih =>
    intro k
    simp [cellsFrom, ih, List.range'_succ]

theorem cellsFrom_wf (k : Nat) (vs : List α) : CellsWf (cellsFrom k vs) := by
  simp [CellsWf, List.pairwise_lt_range']

/-! ## Buffers and tables -/

@[simp] theorem Memory.read_writeRange (m : Memory) (k : Nat) (vs : List Byte) (j : Nat) :
    (m.writeRange k vs).read j = if k ≤ j ∧ j < k + vs.length then byteAt vs (j - k) else m.read j := by
  unfold Memory.read Memory.writeRange byteAt
  simp only [findCell_putRange]
  split
  · rename_i h
    have : j - k < vs.length := by omega
    simp [this]
  · rfl

@[simp] theorem Memory.read_fresh (vs : List Byte) (d j : Nat) :
    (Memory.read ⟨cellsFrom 0 vs, d⟩ j) = if j < vs.length then byteAt vs j else Config.freeByte d j := by
  unfold Memory.read byteAt
  simp only [findCell_cellsFrom]
  by_cases h : j < vs.length
  · simp [h]
  · simp [h]

@[simp] theorem Table.read_write (t : Table) (k : Nat) (v : Word) (j : Nat) :
    (t.write k v).read j = if k = j then v else t.read j := by
  unfold Table.read Table.write
  simp only [findCell_putCell]
  split <;> rfl

@[simp] theorem Table.read_writeRange (t : Table) (vs : List Word) (j : Nat) :
    (t.writeRange vs).read j = if j < vs.length then vs.getD j 0#32 else t.read j := by
  unfold Table.read Table.writeRange
  simp only [findCell_putRange]
  by_cases h : j < vs.length
  · simp [h]
  · simp [h]

@[simp] theorem Memory.readRange_length (m : Memory) (k n : Nat) : (m.readRange k n).length = n := by
  simp [Memory.readRange]

@[simp] theorem Table.readRange_length (t : Table) (n : Nat) : (t.readRange n).length = n := by
  simp [Table.readRange]

theorem Memory.byteAt_readRange (m : Memory) {k n i : Nat} (h : i < n) : byteAt (m.readRange k n) i = m.read (k + i) := by
  simp [byteAt, Memory.readRange, h]

theorem Table.getD_readRange (t : Table) {n i : Nat} (h : i < n) : (t.readRange n).getD i 0#32 = t.read i := by
  simp [Table.readRange, h]

theorem Memory.writeRange_wf {m : Memory} (h : m.wf) (k : Nat) (vs : List Byte) : (m.writeRange k vs).wf := putRange_wf vs k h

theorem Memory.writeWord_wf {m : Memory} (h : m.wf) (q : Nat) (v : Word) : (m.writeWord q v).wf := putRange_wf _ _ h

theorem Memory.fresh_wf (vs : List Byte) (d : Nat) : (Memory.mk (cellsFrom 0 vs) d).wf := cellsFrom_wf 0 vs

theorem Table.write_wf {t : Table} (h : t.wf) (k : Nat) (v : Word) : (t.write k v).wf := putCell_wf h k v

theorem Table.writeRange_wf {t : Table} (h : t.wf) (vs : List Word) : (t.writeRange vs).wf := putRange_wf vs 0 h

/-- Reset memory lists nothing, in canonical form. -/
theorem reset_memories_wf : State.reset.src.wf ∧ State.reset.dst.wf ∧ State.reset.fk.wf ∧ State.reset.sk.wf ∧
    State.reset.fki.wf ∧ State.reset.ski.wf := by
  refine ⟨?_, ?_, ?_, ?_, ?_, ?_⟩ <;> exact List.Pairwise.nil

end Sys2Proof.Machine
end

