-- ==== Sys2Proof/Laws/Words.lean ====
section
/-! SUPPORT. Lanes, packed words and blocks: `pack` and `unpack` are inverse, and `^` on flows is `^` on packed words. -/

namespace Sys2Proof.Machine

@[simp] theorem lane_zero (f : Flow) : lane f 0 = f.b0 := rfl
@[simp] theorem lane_one (f : Flow) : lane f 1 = f.b1 := rfl
@[simp] theorem lane_two (f : Flow) : lane f 2 = f.b2 := rfl
@[simp] theorem lane_three (f : Flow) : lane f 3 = f.b3 := rfl
@[simp] theorem ofLanes_b0 (g : Nat → Byte) : (ofLanes g).b0 = g 0 := rfl
@[simp] theorem ofLanes_b1 (g : Nat → Byte) : (ofLanes g).b1 = g 1 := rfl
@[simp] theorem ofLanes_b2 (g : Nat → Byte) : (ofLanes g).b2 = g 2 := rfl
@[simp] theorem ofLanes_b3 (g : Nat → Byte) : (ofLanes g).b3 = g 3 := rfl

/-- The four lane indices. -/
theorem lane_cases {P : Nat → Prop} (h0 : P 0) (h1 : P 1) (h2 : P 2) (h3 : P 3) : ∀ i, i < 4 → P i := by
  intro i hi
  match i, hi with
  | 0, _ => exact h0
  | 1, _ => exact h1
  | 2, _ => exact h2
  | 3, _ => exact h3

theorem lane_ofLanes (g : Nat → Byte) : ∀ i, i < 4 → lane (ofLanes g) i = g i :=
  lane_cases rfl rfl rfl rfl

@[simp] theorem ofLanes_lane (f : Flow) : ofLanes (lane f) = f := rfl

/-- Two flows with the same lanes are equal. -/
theorem flow_ext {f g : Flow} (h0 : f.b0 = g.b0) (h1 : f.b1 = g.b1) (h2 : f.b2 = g.b2) (h3 : f.b3 = g.b3) : f = g := by
  cases f
  cases g
  simp_all

/-- Bit `n` of a packed flow is bit n % 8 of lane n / 8 (R9). -/
theorem getLsbD_pack (f : Flow) (n : Nat) :
    (pack f).getLsbD n = if n < 32 then (lane f (n / 8)).getLsbD (n % 8) else false := by
  by_cases hn : n < 32
  · simp only [pack, BitVec.getLsbD_append, hn, if_true]
    by_cases h1 : n < 8
    · have : n / 8 = 0 := by omega
      have : n % 8 = n := by omega
      simp [*]
    by_cases h2 : n < 16
    · have : n / 8 = 1 := by omega
      have : n - 8 = n % 8 := by omega
      have : n % 8 < 8 := by omega
      simp [*]
    by_cases h3 : n < 24
    · have : n / 8 = 2 := by omega
      have : n - 8 - 8 = n % 8 := by omega
      have : n % 8 < 8 := by omega
      have : ¬ n - 8 < 8 := by omega
      simp [*]
    · have : n / 8 = 3 := by omega
      have : n - 8 - 8 - 8 = n % 8 := by omega
      have : n % 8 < 8 := by omega
      have : ¬ n - 8 < 8 := by omega
      have : ¬ n - 8 - 8 < 8 := by omega
      simp [*]
  · simp only [hn, if_false]
    exact BitVec.getLsbD_of_ge _ _ (by omega)

/-- Bit `j` of lane `i` of a word is bit 8i + j of the word (R9). -/
theorem getLsbD_lane_unpack (w : Word) (i j : Nat) (hi : i < 4) :
    (lane (unpack w) i).getLsbD j = (decide (j < 8) && w.getLsbD (8 * i + j)) := by
  rw [unpack, lane_ofLanes _ i hi, BitVec.getLsbD_extractLsb']

@[simp] theorem pack_unpack (w : Word) : pack (unpack w) = w := by
  apply BitVec.eq_of_getLsbD_eq
  intro n hn
  rw [getLsbD_pack, if_pos hn, getLsbD_lane_unpack w _ _ (by omega)]
  have h1 : n % 8 < 8 := by omega
  have h2 : 8 * (n / 8) + n % 8 = n := by omega
  simp [h1, h2]

/-- Lane `i` of the unpacked word of a packed flow. -/
theorem lane_unpack_pack (f : Flow) (i : Nat) (hi : i < 4) : lane (unpack (pack f)) i = lane f i := by
  apply BitVec.eq_of_getLsbD_eq
  intro j hj
  rw [getLsbD_lane_unpack _ _ _ hi, getLsbD_pack, if_pos (by omega)]
  have h1 : (8 * i + j) / 8 = i := by omega
  have h2 : (8 * i + j) % 8 = j := by omega
  simp [h1, h2, hj]

@[simp] theorem unpack_pack (f : Flow) : unpack (pack f) = f :=
  flow_ext (lane_unpack_pack f 0 (by decide)) (lane_unpack_pack f 1 (by decide))
    (lane_unpack_pack f 2 (by decide)) (lane_unpack_pack f 3 (by decide))

theorem lane_xorFlow (a b : Flow) : ∀ i, i < 4 → lane (xorFlow a b) i = lane a i ^^^ lane b i :=
  lane_cases rfl rfl rfl rfl

/-- The XOR of two packed words is the packed XOR of the bytes (20_memory.md R57). -/
theorem pack_xorFlow (a b : Flow) : pack (xorFlow a b) = pack a ^^^ pack b := by
  apply BitVec.eq_of_getLsbD_eq
  intro n hn
  rw [BitVec.getLsbD_xor, getLsbD_pack, getLsbD_pack, getLsbD_pack, if_pos hn, if_pos hn, if_pos hn,
    lane_xorFlow _ _ _ (by omega), BitVec.getLsbD_xor]

theorem xorFlow_comm (a b : Flow) : xorFlow a b = xorFlow b a := by
  simp [xorFlow, ofLanes, BitVec.xor_comm]

theorem xorFlow_assoc (a b c : Flow) : xorFlow (xorFlow a b) c = xorFlow a (xorFlow b c) := by
  simp [xorFlow, ofLanes, BitVec.xor_assoc]

@[simp] theorem xorFlow_cancel (a b : Flow) : xorFlow (xorFlow a b) b = a := by
  apply flow_ext <;> simp [xorFlow]

/-- A flow has four bytes, in lane order. -/
theorem flowBytes_eq (f : Flow) : flowBytes f = (List.range 4).map (lane f) := rfl

@[simp] theorem flatten_length (b : Block) : (flatten b).length = 16 := rfl

/-- `flatten` after `partition` gives the 16 bytes back (00_scope.md R11). -/
theorem flatten_partition (g : Nat → Byte) : flatten (partition g) = (List.range 16).map g := rfl

/-- `partition` after `flatten` gives the block back (00_scope.md R11). -/
theorem partition_flatten (b : Block) : partition (byteAt (flatten b)) = b := rfl

/-- `partition` reads bytes 0..15 only. -/
theorem partition_congr {g h : Nat → Byte} (e : ∀ k, k < 16 → g k = h k) : partition g = partition h := by
  simp [partition, ofLanes, e]

end Sys2Proof.Machine
end

