-- ==== Sys2Proof/Laws/Blocks.lean ====
section
/-! SUPPORT. Byte strings of the block cipher: where byte 16b + k of a message of blocks stands, and what the zero
trim leaves. -/

namespace Sys2Proof.Machine

/-! ## Byte strings made of equal pieces -/

/-- Entry w*i + j of `n` pieces of length `w` laid end to end. -/
theorem getElem?_flatMap_range {α : Type} (w : Nat) (f : Nat → List α) (hw : ∀ i, (f i).length = w) :
    ∀ (n i j : Nat), i < n → j < w → ((List.range n).flatMap f)[w * i + j]? = (f i)[j]? := by
  intro n
  induction n with
  | zero => exact fun i j h => absurd h (Nat.not_lt_zero i)
  | succ n ih =>
    intro i j hi hj
    have hl : ((List.range n).flatMap f).length = w * n := by
      simp [List.length_flatMap, hw, Nat.mul_comm]
    rw [List.range_succ, List.flatMap_append]
    by_cases h : i < n
    · have : w * i + j < w * n := by
        calc w * i + j < w * i + w := by omega
          _ = w * (i + 1) := by ring
          _ ≤ w * n := Nat.mul_le_mul_left w h
      rw [List.getElem?_append_left (by omega)]
      exact ih i j h hj
    · have : i = n := by omega
      subst this
      rw [List.getElem?_append_right (by omega), hl]
      simp

theorem length_flatMap_range {α : Type} (w : Nat) (f : Nat → List α) (hw : ∀ i, (f i).length = w) (n : Nat) :
    ((List.range n).flatMap f).length = w * n := by
  simp [List.length_flatMap, hw, Nat.mul_comm]

@[simp] theorem blocksBytes_length (B : Nat) (f : Nat → Block) : (blocksBytes B f).length = 16 * B :=
  length_flatMap_range 16 _ (fun i => flatten_length (f i)) B

/-- Byte 16b + k of a message of blocks is byte k of block b. -/
theorem byteAt_blocksBytes {B : Nat} (f : Nat → Block) {b k : Nat} (hb : b < B) (hk : k < 16) :
    byteAt (blocksBytes B f) (16 * b + k) = byteAt (flatten (f b)) k := by
  have h := getElem?_flatMap_range 16 (fun i => flatten (f i)) (fun i => flatten_length (f i)) B b k hb hk
  rw [byteAt, byteAt, List.getD_eq_getElem?_getD, List.getD_eq_getElem?_getD, blocksBytes, h]

theorem byteAt_take (bs : List Byte) {k n : Nat} (h : k < n) : byteAt (bs.take n) k = byteAt bs k := by
  simp [byteAt, h]

theorem byteAt_drop (bs : List Byte) (a k : Nat) : byteAt (bs.drop a) k = byteAt bs (a + k) := by
  simp [byteAt, List.getElem?_drop]

/-! ## The zero trim -/

/-- What the loop of TRIMZ_LEN leaves, from `n` down to `floor`. -/
theorem trimZeros_spec (O : List Byte) (floor : Nat) : ∀ n, floor ≤ n →
    floor ≤ trimZeros O floor n ∧ trimZeros O floor n ≤ n ∧
      (∀ k, trimZeros O floor n ≤ k → k < n → byteAt O k = 0#8) ∧
      (trimZeros O floor n = floor ∨ byteAt O (trimZeros O floor n - 1) ≠ 0#8) := by
  intro n
  induction n with
  | zero => intro h; exact ⟨h, le_rfl, fun k _ hk => absurd hk (Nat.not_lt_zero k), .inl (by simp [trimZeros]; omega)⟩
  | succ n ih =>
    intro h
    unfold trimZeros
    split
    · rename_i hc
      obtain ⟨h1, h2, h3, h4⟩ := ih (by omega)
      refine ⟨h1, by omega, fun k hk hk' => ?_, h4⟩
      by_cases hn : k = n
      · exact hn ▸ hc.2
      · exact h3 k hk (by omega)
    · rename_i hc
      refine ⟨h, le_rfl, fun k hk hk' => by omega, ?_⟩
      by_cases hf : floor < n + 1
      · exact .inr (fun e => hc ⟨hf, by simpa using e⟩)
      · exact .inl (by omega)

/-- What TRIMZ_LEN leaves of whole blocks (R124). -/
theorem trimzLen_spec (O : List Byte) (L : Nat) :
    trimzLen O L ≤ L ∧ L ≤ trimzLen O L + 16 ∧ (∀ k, trimzLen O L ≤ k → k < L → byteAt O k = 0#8) ∧
      (L = 0 ∨ trimzLen O L = L - 16 ∨ byteAt O (trimzLen O L - 1) ≠ 0#8) := by
  unfold trimzLen
  split
  · rename_i h
    exact ⟨by omega, by omega, fun k _ hk => by omega, .inl h⟩
  · obtain ⟨h1, h2, h3, h4⟩ := trimZeros_spec O (L - 16) L (by omega)
    exact ⟨h2, by omega, h3, .inr h4⟩

/-- The zero trim looks at the bytes below `L` only. -/
theorem trimZeros_congr {O O' : List Byte} {floor : Nat} : ∀ {n : Nat}, (∀ k, k < n → byteAt O k = byteAt O' k) →
    trimZeros O floor n = trimZeros O' floor n := by
  intro n
  induction n with
  | zero => exact fun _ => rfl
  | succ n ih =>
    intro h
    unfold trimZeros
    rw [h n (by omega), ih (fun k hk => h k (by omega))]

theorem trimzLen_congr {O O' : List Byte} {L : Nat} (h : ∀ k, k < L → byteAt O k = byteAt O' k) :
    trimzLen O L = trimzLen O' L := by
  unfold trimzLen
  rw [trimZeros_congr h]

end Sys2Proof.Machine
end

