-- ==== Sys2Proof/Laws/Decode.lean ====
section
/-! SUPPORT. The fields of a command word and what a row of the opcode map asks of them. -/

namespace Sys2Proof

/-! ## Fields -/

/-- A word is its four fields: the reserved bits, NOTRIM, RIDX and OP (30_encoding.md R70). -/
theorem word_fields_ext {a b : Word} (h1 : a.extractLsb' 13 19 = b.extractLsb' 13 19)
    (h2 : a.getLsbD 12 = b.getLsbD 12) (h3 : a.extractLsb' 8 4 = b.extractLsb' 8 4)
    (h4 : a.extractLsb' 0 8 = b.extractLsb' 0 8) : a = b := by
  apply BitVec.eq_of_getLsbD_eq
  intro n hn
  by_cases c1 : n < 8
  · have := congrArg (fun x => x.getLsbD n) h4
    simpa [c1] using this
  by_cases c2 : n < 12
  · have := congrArg (fun x => x.getLsbD (n - 8)) h3
    have e : 8 + (n - 8) = n := by omega
    have e2 : n - 8 < 4 := by omega
    simpa [e, e2] using this
  by_cases c3 : n = 12
  · subst c3
    exact h2
  · have := congrArg (fun x => x.getLsbD (n - 13)) h1
    have e : 13 + (n - 13) = n := by omega
    have e2 : n - 13 < 19 := by omega
    simpa [e, e2] using this

/-- A word under a mask, field by field. -/
theorem masked_eq_iff (c m p : Word) : (c &&& m = p) ↔
    (c.extractLsb' 13 19 &&& m.extractLsb' 13 19 = p.extractLsb' 13 19 ∧
      (c.getLsbD 12 && m.getLsbD 12) = p.getLsbD 12 ∧
      c.extractLsb' 8 4 &&& m.extractLsb' 8 4 = p.extractLsb' 8 4 ∧
      c.extractLsb' 0 8 &&& m.extractLsb' 0 8 = p.extractLsb' 0 8) := by
  constructor
  · rintro rfl
    simp [BitVec.extractLsb'_and]
  · rintro ⟨h1, h2, h3, h4⟩
    apply word_fields_ext
    · simp [BitVec.extractLsb'_and, h1]
    · rw [BitVec.getLsbD_and, h2]
    · simp [BitVec.extractLsb'_and, h3]
    · simp [BitVec.extractLsb'_and, h4]

/-- RIDX is bits 11:8 (R70). -/
theorem ridxField_eq (c : Word) : ridxField c = (c.extractLsb' 8 4).toNat := by
  simp [ridxField, BitVec.extractLsb'_toNat]

theorem ridxField_lt (c : Word) : ridxField c < 16 := Nat.mod_lt _ (by decide)

theorem ones19 (x : BitVec 19) : x &&& 524287#19 = x := by
  have : (524287#19) = BitVec.allOnes 19 := by decide
  rw [this, BitVec.and_allOnes]

theorem ones8 (x : BitVec 8) : x &&& 255#8 = x := by
  have : (255#8) = BitVec.allOnes 8 := by decide
  rw [this, BitVec.and_allOnes]

theorem ones4 (x : BitVec 4) : x &&& 15#4 = x := by
  have : (15#4) = BitVec.allOnes 4 := by decide
  rw [this, BitVec.and_allOnes]

/-! ## Rows -/

/-- What a row asks of a word's fields: reserved bits 0, its OP, RIDX 0 unless it uses RIDX, NOTRIM 0 unless it uses
NOTRIM (R70, R74). -/
def Fits (c : Word) (op : BitVec 8) (usesRidx usesNotrim : Bool) : Prop :=
  c.extractLsb' 13 19 = 0#19 ∧ (usesNotrim = true ∨ c.getLsbD 12 = false) ∧
    (usesRidx = true ∨ c.extractLsb' 8 4 = 0#4) ∧ c.extractLsb' 0 8 = op

theorem fits_full (c : Word) (op : BitVec 8) (p : Word) (hp : p = op.setWidth 32) :
    (c &&& 0xFFFFFFFF#32 = p) ↔ Fits c op false false := by
  subst hp
  have e1 : (BitVec.setWidth 32 op).extractLsb' 13 19 = 0#19 := by
    apply BitVec.eq_of_getLsbD_eq
    intro i hi
    simp
    intros
    apply BitVec.getLsbD_of_ge
    omega
  have e2 : (BitVec.setWidth 32 op).getLsbD 12 = false := by simp
  have e3 : (BitVec.setWidth 32 op).extractLsb' 8 4 = 0#4 := by
    apply BitVec.eq_of_getLsbD_eq
    intro i hi
    simp
  have e4 : (BitVec.setWidth 32 op).extractLsb' 0 8 = op := by
    apply BitVec.eq_of_getLsbD_eq
    intro i hi
    simp [hi]
    intros
    omega
  rw [masked_eq_iff, e1, e2, e3, e4]
  simp [Fits, ones19, ones8, ones4]

theorem fits_ridx (c : Word) : ((c &&& 0xFFFFF0FF#32 = 2#32) ↔ Fits c 2#8 true false) ∧
    ((c &&& 0xFFFFF0FF#32 = 3#32) ↔ Fits c 3#8 true false) := by
  constructor <;> rw [masked_eq_iff] <;> simp [Fits, ones19, ones8]

theorem fits_notrim (c : Word) : ((c &&& 0xFFFFEFFF#32 = 7#32) ↔ Fits c 7#8 false true) ∧
    ((c &&& 0xFFFFEFFF#32 = 10#32) ↔ Fits c 10#8 false true) := by
  constructor <;> rw [masked_eq_iff] <;> simp [Fits, ones19, ones8, ones4]

/-- A word decodes exactly when it matches a row. -/
theorem decode_ok_iff (c : Word) : (∃ i, decode c = .ok i) ↔ ∃ row ∈ opTable, c &&& row.mask = row.pattern := by
  unfold decode
  constructor
  · rintro ⟨i, h⟩
    split at h
    · rename_i row hr
      exact ⟨row, List.mem_of_find?_eq_some hr, by simpa [OpRow.matches] using List.find?_some hr⟩
    · cases h
  · rintro ⟨row, hm, hr⟩
    split
    · exact ⟨_, rfl⟩
    · rename_i h
      have := List.find?_eq_none.mp h row hm
      simp [OpRow.matches, hr] at this

/-- What a word that decodes has met: a row it matches, whose build its instruction is. -/
theorem decode_row {c : Word} {i : Instr} (h : decode c = .ok i) :
    ∃ row ∈ opTable, c &&& row.mask = row.pattern ∧ row.build c = i := by
  unfold decode at h
  split at h
  · rename_i row hr
    cases h
    exact ⟨row, List.mem_of_find?_eq_some hr, by simpa [OpRow.matches] using List.find?_some hr, rfl⟩
  · cases h

/-- Every row of the map is the `Fits` of its fields. -/
theorem row_iff (c : Word) : ∀ row ∈ opTable, (c &&& row.mask = row.pattern ↔
    Fits c (row.pattern.extractLsb' 0 8) (row.mnemonic == "RENC" || row.mnemonic == "RDEC")
      (row.mnemonic == "MDEC" || row.mnemonic == "TDEC")) := by
  intro row hr
  simp only [opTable, List.mem_cons, List.not_mem_nil, or_false] at hr
  rcases hr with rfl | rfl | rfl | rfl | rfl | rfl | rfl | rfl | rfl | rfl | rfl | rfl | rfl | rfl
  · exact fits_full c 0 _ (by decide)
  · exact fits_full c 1 _ (by decide)
  · exact (fits_ridx c).1
  · exact (fits_ridx c).2
  · exact fits_full c 4 _ (by decide)
  · exact fits_full c 5 _ (by decide)
  · exact fits_full c 6 _ (by decide)
  · exact (fits_notrim c).1
  · exact fits_full c 8 _ (by decide)
  · exact fits_full c 9 _ (by decide)
  · exact (fits_notrim c).2
  · exact fits_full c 11 _ (by decide)
  · exact fits_full c 12 _ (by decide)
  · exact fits_full c 13 _ (by decide)

/-- The words of the commands that latch key material or write SRC. -/
theorem decode_word {c : Word} {i : Instr} (h : decode c = .ok i) :
    (i = .ksched → c = 0x00000001#32) ∧ (i = .tcfg → c = 0x00000008#32) ∧ (i = .move → c = 0x0000000D#32) := by
  have full : ∀ c : Word, c &&& 0xFFFFFFFF#32 = c := fun c => by
    show c &&& BitVec.allOnes 32 = c
    exact BitVec.and_allOnes
  obtain ⟨row, hm, hr, rfl⟩ := decode_row h
  simp only [opTable, List.mem_cons, List.not_mem_nil, or_false] at hm
  rcases hm with rfl | rfl | rfl | rfl | rfl | rfl | rfl | rfl | rfl | rfl | rfl | rfl | rfl | rfl <;> simp_all

end Sys2Proof
end

