-- ==== Sys2Proof/Laws/State.lean ====
section
/-! SUPPORT. One lemma per field per named update of STATUS and of State, so that no proof unfolds a record update. -/

namespace Sys2Proof.Machine

/-! ## STATUS -/

@[simp] theorem Status.issued_busy (t : Status) : (t.issued).busy = true := rfl
@[simp] theorem Status.issued_done (t : Status) : (t.issued).done = false := rfl
@[simp] theorem Status.issued_err (t : Status) : (t.issued).err = false := rfl
@[simp] theorem Status.issued_errcode (t : Status) : (t.issued).errcode = 0#4 := rfl
@[simp] theorem Status.issued_rkValid (t : Status) : (t.issued).rkValid = t.rkValid := rfl
@[simp] theorem Status.issued_tpValid (t : Status) : (t.issued).tpValid = t.tpValid := rfl

@[simp] theorem Status.completed_busy (t : Status) : (t.completed).busy = false := rfl
@[simp] theorem Status.completed_done (t : Status) : (t.completed).done = true := rfl
@[simp] theorem Status.completed_err (t : Status) : (t.completed).err = t.err := rfl
@[simp] theorem Status.completed_errcode (t : Status) : (t.completed).errcode = t.errcode := rfl
@[simp] theorem Status.completed_rkValid (t : Status) : (t.completed).rkValid = t.rkValid := rfl
@[simp] theorem Status.completed_tpValid (t : Status) : (t.completed).tpValid = t.tpValid := rfl

@[simp] theorem Status.failed_busy (t : Status) (e : ErrorKind) : (t.failed e).busy = false := rfl
@[simp] theorem Status.failed_done (t : Status) (e : ErrorKind) : (t.failed e).done = true := rfl
@[simp] theorem Status.failed_err (t : Status) (e : ErrorKind) : (t.failed e).err = true := rfl
@[simp] theorem Status.failed_errcode (t : Status) (e : ErrorKind) : (t.failed e).errcode = e.code := rfl
@[simp] theorem Status.failed_rkValid (t : Status) (e : ErrorKind) : (t.failed e).rkValid = t.rkValid := rfl
@[simp] theorem Status.failed_tpValid (t : Status) (e : ErrorKind) : (t.failed e).tpValid = t.tpValid := rfl

@[simp] theorem Status.withKeySchedule_busy (t : Status) : (t.withKeySchedule).busy = t.busy := rfl
@[simp] theorem Status.withKeySchedule_done (t : Status) : (t.withKeySchedule).done = t.done := rfl
@[simp] theorem Status.withKeySchedule_err (t : Status) : (t.withKeySchedule).err = t.err := rfl
@[simp] theorem Status.withKeySchedule_errcode (t : Status) : (t.withKeySchedule).errcode = t.errcode := rfl
@[simp] theorem Status.withKeySchedule_rkValid (t : Status) : (t.withKeySchedule).rkValid = true := rfl
@[simp] theorem Status.withKeySchedule_tpValid (t : Status) : (t.withKeySchedule).tpValid = t.tpValid := rfl

@[simp] theorem Status.withPermutationKeys_busy (t : Status) : (t.withPermutationKeys).busy = t.busy := rfl
@[simp] theorem Status.withPermutationKeys_done (t : Status) : (t.withPermutationKeys).done = t.done := rfl
@[simp] theorem Status.withPermutationKeys_err (t : Status) : (t.withPermutationKeys).err = t.err := rfl
@[simp] theorem Status.withPermutationKeys_errcode (t : Status) : (t.withPermutationKeys).errcode = t.errcode := rfl
@[simp] theorem Status.withPermutationKeys_rkValid (t : Status) : (t.withPermutationKeys).rkValid = t.rkValid := rfl
@[simp] theorem Status.withPermutationKeys_tpValid (t : Status) : (t.withPermutationKeys).tpValid = true := rfl

/-! ## State -/

@[simp] theorem State.issue_params (s : State) (c : Word) : (s.issue c).params = s.params := rfl
@[simp] theorem State.issue_cmd (s : State) (c : Word) : (s.issue c).cmd = c := rfl
@[simp] theorem State.issue_status (s : State) (c : Word) : (s.issue c).status = s.status.issued := rfl
@[simp] theorem State.issue_errinfo (s : State) (c : Word) : (s.issue c).errinfo = 0#32 := rfl
@[simp] theorem State.issue_keyLen (s : State) (c : Word) : (s.issue c).keyLen = s.keyLen := rfl
@[simp] theorem State.issue_tpN (s : State) (c : Word) : (s.issue c).tpN = s.tpN := rfl
@[simp] theorem State.issue_tpSkLen (s : State) (c : Word) : (s.issue c).tpSkLen = s.tpSkLen := rfl
@[simp] theorem State.issue_srcLen (s : State) (c : Word) : (s.issue c).srcLen = s.srcLen := rfl
@[simp] theorem State.issue_dstLen (s : State) (c : Word) : (s.issue c).dstLen = s.dstLen := rfl
@[simp] theorem State.issue_key (s : State) (c : Word) : (s.issue c).key = s.key := rfl
@[simp] theorem State.issue_flow (s : State) (c : Word) : (s.issue c).flow = s.flow := rfl
@[simp] theorem State.issue_rk (s : State) (c : Word) : (s.issue c).rk = s.rk := rfl
@[simp] theorem State.issue_rkDraw (s : State) (c : Word) : (s.issue c).rkDraw = s.rkDraw := rfl
@[simp] theorem State.issue_fk (s : State) (c : Word) : (s.issue c).fk = s.fk := rfl
@[simp] theorem State.issue_sk (s : State) (c : Word) : (s.issue c).sk = s.sk := rfl
@[simp] theorem State.issue_ni (s : State) (c : Word) : (s.issue c).ni = s.ni := rfl
@[simp] theorem State.issue_fki (s : State) (c : Word) : (s.issue c).fki = s.fki := rfl
@[simp] theorem State.issue_ski (s : State) (c : Word) : (s.issue c).ski = s.ski := rfl
@[simp] theorem State.issue_src (s : State) (c : Word) : (s.issue c).src = s.src := rfl
@[simp] theorem State.issue_dst (s : State) (c : Word) : (s.issue c).dst = s.dst := rfl
@[simp] theorem State.issue_drawn (s : State) (c : Word) : (s.issue c).drawn = s.drawn := rfl
@[simp] theorem State.issue_history (s : State) (c : Word) : (s.issue c).history = s.history := rfl
@[simp] theorem State.issue_sched (s : State) (c : Word) : (s.issue c).sched = s.sched := rfl
@[simp] theorem State.issue_hostProg (s : State) (c : Word) : (s.issue c).hostProg = s.hostProg := rfl
@[simp] theorem State.issue_hostVar (s : State) (c : Word) : (s.issue c).hostVar = s.hostVar := rfl

@[simp] theorem State.complete_params (s : State) : (s.complete).params = s.params := rfl
@[simp] theorem State.complete_cmd (s : State) : (s.complete).cmd = s.cmd := rfl
@[simp] theorem State.complete_status (s : State) : (s.complete).status = s.status.completed := rfl
@[simp] theorem State.complete_errinfo (s : State) : (s.complete).errinfo = s.errinfo := rfl
@[simp] theorem State.complete_keyLen (s : State) : (s.complete).keyLen = s.keyLen := rfl
@[simp] theorem State.complete_tpN (s : State) : (s.complete).tpN = s.tpN := rfl
@[simp] theorem State.complete_tpSkLen (s : State) : (s.complete).tpSkLen = s.tpSkLen := rfl
@[simp] theorem State.complete_srcLen (s : State) : (s.complete).srcLen = s.srcLen := rfl
@[simp] theorem State.complete_dstLen (s : State) : (s.complete).dstLen = s.dstLen := rfl
@[simp] theorem State.complete_key (s : State) : (s.complete).key = s.key := rfl
@[simp] theorem State.complete_flow (s : State) : (s.complete).flow = s.flow := rfl
@[simp] theorem State.complete_rk (s : State) : (s.complete).rk = s.rk := rfl
@[simp] theorem State.complete_rkDraw (s : State) : (s.complete).rkDraw = s.rkDraw := rfl
@[simp] theorem State.complete_fk (s : State) : (s.complete).fk = s.fk := rfl
@[simp] theorem State.complete_sk (s : State) : (s.complete).sk = s.sk := rfl
@[simp] theorem State.complete_ni (s : State) : (s.complete).ni = s.ni := rfl
@[simp] theorem State.complete_fki (s : State) : (s.complete).fki = s.fki := rfl
@[simp] theorem State.complete_ski (s : State) : (s.complete).ski = s.ski := rfl
@[simp] theorem State.complete_src (s : State) : (s.complete).src = s.src := rfl
@[simp] theorem State.complete_dst (s : State) : (s.complete).dst = s.dst := rfl
@[simp] theorem State.complete_drawn (s : State) : (s.complete).drawn = s.drawn := rfl
@[simp] theorem State.complete_history (s : State) : (s.complete).history = s.status.errcode :: s.history := rfl
@[simp] theorem State.complete_sched (s : State) : (s.complete).sched = s.sched := rfl
@[simp] theorem State.complete_hostProg (s : State) : (s.complete).hostProg = s.hostProg := rfl
@[simp] theorem State.complete_hostVar (s : State) : (s.complete).hostVar = s.hostVar := rfl

@[simp] theorem State.raise_params (s : State) (x : Raised) : (s.raise x).params = s.params := rfl
@[simp] theorem State.raise_cmd (s : State) (x : Raised) : (s.raise x).cmd = s.cmd := rfl
@[simp] theorem State.raise_status (s : State) (x : Raised) : (s.raise x).status = s.status.failed x.error := rfl
@[simp] theorem State.raise_errinfo (s : State) (x : Raised) : (s.raise x).errinfo = x.info := rfl
@[simp] theorem State.raise_keyLen (s : State) (x : Raised) : (s.raise x).keyLen = s.keyLen := rfl
@[simp] theorem State.raise_tpN (s : State) (x : Raised) : (s.raise x).tpN = s.tpN := rfl
@[simp] theorem State.raise_tpSkLen (s : State) (x : Raised) : (s.raise x).tpSkLen = s.tpSkLen := rfl
@[simp] theorem State.raise_srcLen (s : State) (x : Raised) : (s.raise x).srcLen = s.srcLen := rfl
@[simp] theorem State.raise_dstLen (s : State) (x : Raised) : (s.raise x).dstLen = s.dstLen := rfl
@[simp] theorem State.raise_key (s : State) (x : Raised) : (s.raise x).key = s.key := rfl
@[simp] theorem State.raise_flow (s : State) (x : Raised) : (s.raise x).flow = s.flow := rfl
@[simp] theorem State.raise_rk (s : State) (x : Raised) : (s.raise x).rk = s.rk := rfl
@[simp] theorem State.raise_rkDraw (s : State) (x : Raised) : (s.raise x).rkDraw = s.rkDraw := rfl
@[simp] theorem State.raise_fk (s : State) (x : Raised) : (s.raise x).fk = s.fk := rfl
@[simp] theorem State.raise_sk (s : State) (x : Raised) : (s.raise x).sk = s.sk := rfl
@[simp] theorem State.raise_ni (s : State) (x : Raised) : (s.raise x).ni = s.ni := rfl
@[simp] theorem State.raise_fki (s : State) (x : Raised) : (s.raise x).fki = s.fki := rfl
@[simp] theorem State.raise_ski (s : State) (x : Raised) : (s.raise x).ski = s.ski := rfl
@[simp] theorem State.raise_src (s : State) (x : Raised) : (s.raise x).src = s.src := rfl
@[simp] theorem State.raise_dst (s : State) (x : Raised) : (s.raise x).dst = s.dst := rfl
@[simp] theorem State.raise_drawn (s : State) (x : Raised) : (s.raise x).drawn = s.drawn := rfl
@[simp] theorem State.raise_history (s : State) (x : Raised) : (s.raise x).history = x.error.code :: s.history := rfl
@[simp] theorem State.raise_sched (s : State) (x : Raised) : (s.raise x).sched = s.sched := rfl
@[simp] theorem State.raise_hostProg (s : State) (x : Raised) : (s.raise x).hostProg = s.hostProg := rfl
@[simp] theorem State.raise_hostVar (s : State) (x : Raised) : (s.raise x).hostVar = s.hostVar := rfl

@[simp] theorem State.writeResult_params (s : State) (bytes : List Byte) : (s.writeResult bytes).params = s.params := rfl
@[simp] theorem State.writeResult_cmd (s : State) (bytes : List Byte) : (s.writeResult bytes).cmd = s.cmd := rfl
@[simp] theorem State.writeResult_status (s : State) (bytes : List Byte) : (s.writeResult bytes).status = s.status := rfl
@[simp] theorem State.writeResult_errinfo (s : State) (bytes : List Byte) : (s.writeResult bytes).errinfo = s.errinfo := rfl
@[simp] theorem State.writeResult_keyLen (s : State) (bytes : List Byte) : (s.writeResult bytes).keyLen = s.keyLen := rfl
@[simp] theorem State.writeResult_tpN (s : State) (bytes : List Byte) : (s.writeResult bytes).tpN = s.tpN := rfl
@[simp] theorem State.writeResult_tpSkLen (s : State) (bytes : List Byte) : (s.writeResult bytes).tpSkLen = s.tpSkLen := rfl
@[simp] theorem State.writeResult_srcLen (s : State) (bytes : List Byte) : (s.writeResult bytes).srcLen = s.srcLen := rfl
@[simp] theorem State.writeResult_dstLen (s : State) (bytes : List Byte) : (s.writeResult bytes).dstLen = BitVec.ofNat 32 bytes.length := rfl
@[simp] theorem State.writeResult_key (s : State) (bytes : List Byte) : (s.writeResult bytes).key = s.key := rfl
@[simp] theorem State.writeResult_flow (s : State) (bytes : List Byte) : (s.writeResult bytes).flow = s.flow := rfl
@[simp] theorem State.writeResult_rk (s : State) (bytes : List Byte) : (s.writeResult bytes).rk = s.rk := rfl
@[simp] theorem State.writeResult_rkDraw (s : State) (bytes : List Byte) : (s.writeResult bytes).rkDraw = s.rkDraw := rfl
@[simp] theorem State.writeResult_fk (s : State) (bytes : List Byte) : (s.writeResult bytes).fk = s.fk := rfl
@[simp] theorem State.writeResult_sk (s : State) (bytes : List Byte) : (s.writeResult bytes).sk = s.sk := rfl
@[simp] theorem State.writeResult_ni (s : State) (bytes : List Byte) : (s.writeResult bytes).ni = s.ni := rfl
@[simp] theorem State.writeResult_fki (s : State) (bytes : List Byte) : (s.writeResult bytes).fki = s.fki := rfl
@[simp] theorem State.writeResult_ski (s : State) (bytes : List Byte) : (s.writeResult bytes).ski = s.ski := rfl
@[simp] theorem State.writeResult_src (s : State) (bytes : List Byte) : (s.writeResult bytes).src = s.src := rfl
@[simp] theorem State.writeResult_dst (s : State) (bytes : List Byte) : (s.writeResult bytes).dst = ⟨cellsFrom 0 bytes, s.drawn⟩ := rfl
@[simp] theorem State.writeResult_drawn (s : State) (bytes : List Byte) : (s.writeResult bytes).drawn = s.drawn + 1 := rfl
@[simp] theorem State.writeResult_history (s : State) (bytes : List Byte) : (s.writeResult bytes).history = s.history := rfl
@[simp] theorem State.writeResult_sched (s : State) (bytes : List Byte) : (s.writeResult bytes).sched = s.sched := rfl
@[simp] theorem State.writeResult_hostProg (s : State) (bytes : List Byte) : (s.writeResult bytes).hostProg = s.hostProg := rfl
@[simp] theorem State.writeResult_hostVar (s : State) (bytes : List Byte) : (s.writeResult bytes).hostVar = s.hostVar := rfl

@[simp] theorem State.withFlow_params (s : State) (b : Block) : (s.withFlow b).params = s.params := rfl
@[simp] theorem State.withFlow_cmd (s : State) (b : Block) : (s.withFlow b).cmd = s.cmd := rfl
@[simp] theorem State.withFlow_status (s : State) (b : Block) : (s.withFlow b).status = s.status := rfl
@[simp] theorem State.withFlow_errinfo (s : State) (b : Block) : (s.withFlow b).errinfo = s.errinfo := rfl
@[simp] theorem State.withFlow_keyLen (s : State) (b : Block) : (s.withFlow b).keyLen = s.keyLen := rfl
@[simp] theorem State.withFlow_tpN (s : State) (b : Block) : (s.withFlow b).tpN = s.tpN := rfl
@[simp] theorem State.withFlow_tpSkLen (s : State) (b : Block) : (s.withFlow b).tpSkLen = s.tpSkLen := rfl
@[simp] theorem State.withFlow_srcLen (s : State) (b : Block) : (s.withFlow b).srcLen = s.srcLen := rfl
@[simp] theorem State.withFlow_dstLen (s : State) (b : Block) : (s.withFlow b).dstLen = s.dstLen := rfl
@[simp] theorem State.withFlow_key (s : State) (b : Block) : (s.withFlow b).key = s.key := rfl
@[simp] theorem State.withFlow_flow (s : State) (b : Block) : (s.withFlow b).flow = packBlock b := rfl
@[simp] theorem State.withFlow_rk (s : State) (b : Block) : (s.withFlow b).rk = s.rk := rfl
@[simp] theorem State.withFlow_rkDraw (s : State) (b : Block) : (s.withFlow b).rkDraw = s.rkDraw := rfl
@[simp] theorem State.withFlow_fk (s : State) (b : Block) : (s.withFlow b).fk = s.fk := rfl
@[simp] theorem State.withFlow_sk (s : State) (b : Block) : (s.withFlow b).sk = s.sk := rfl
@[simp] theorem State.withFlow_ni (s : State) (b : Block) : (s.withFlow b).ni = s.ni := rfl
@[simp] theorem State.withFlow_fki (s : State) (b : Block) : (s.withFlow b).fki = s.fki := rfl
@[simp] theorem State.withFlow_ski (s : State) (b : Block) : (s.withFlow b).ski = s.ski := rfl
@[simp] theorem State.withFlow_src (s : State) (b : Block) : (s.withFlow b).src = s.src := rfl
@[simp] theorem State.withFlow_dst (s : State) (b : Block) : (s.withFlow b).dst = s.dst := rfl
@[simp] theorem State.withFlow_drawn (s : State) (b : Block) : (s.withFlow b).drawn = s.drawn := rfl
@[simp] theorem State.withFlow_history (s : State) (b : Block) : (s.withFlow b).history = s.history := rfl
@[simp] theorem State.withFlow_sched (s : State) (b : Block) : (s.withFlow b).sched = s.sched := rfl
@[simp] theorem State.withFlow_hostProg (s : State) (b : Block) : (s.withFlow b).hostProg = s.hostProg := rfl
@[simp] theorem State.withFlow_hostVar (s : State) (b : Block) : (s.withFlow b).hostVar = s.hostVar := rfl

@[simp] theorem State.latchKeys_params (s : State) (n : Nat) : (s.latchKeys n).params = s.params := rfl
@[simp] theorem State.latchKeys_cmd (s : State) (n : Nat) : (s.latchKeys n).cmd = s.cmd := rfl
@[simp] theorem State.latchKeys_status (s : State) (n : Nat) : (s.latchKeys n).status = s.status.withPermutationKeys := rfl
@[simp] theorem State.latchKeys_errinfo (s : State) (n : Nat) : (s.latchKeys n).errinfo = s.errinfo := rfl
@[simp] theorem State.latchKeys_keyLen (s : State) (n : Nat) : (s.latchKeys n).keyLen = s.keyLen := rfl
@[simp] theorem State.latchKeys_tpN (s : State) (n : Nat) : (s.latchKeys n).tpN = s.tpN := rfl
@[simp] theorem State.latchKeys_tpSkLen (s : State) (n : Nat) : (s.latchKeys n).tpSkLen = s.tpSkLen := rfl
@[simp] theorem State.latchKeys_srcLen (s : State) (n : Nat) : (s.latchKeys n).srcLen = s.srcLen := rfl
@[simp] theorem State.latchKeys_dstLen (s : State) (n : Nat) : (s.latchKeys n).dstLen = s.dstLen := rfl
@[simp] theorem State.latchKeys_key (s : State) (n : Nat) : (s.latchKeys n).key = s.key := rfl
@[simp] theorem State.latchKeys_flow (s : State) (n : Nat) : (s.latchKeys n).flow = s.flow := rfl
@[simp] theorem State.latchKeys_rk (s : State) (n : Nat) : (s.latchKeys n).rk = s.rk := rfl
@[simp] theorem State.latchKeys_rkDraw (s : State) (n : Nat) : (s.latchKeys n).rkDraw = s.rkDraw := rfl
@[simp] theorem State.latchKeys_fk (s : State) (n : Nat) : (s.latchKeys n).fk = s.fk := rfl
@[simp] theorem State.latchKeys_sk (s : State) (n : Nat) : (s.latchKeys n).sk = s.sk := rfl
@[simp] theorem State.latchKeys_ni (s : State) (n : Nat) : (s.latchKeys n).ni = s.tpN := rfl
@[simp] theorem State.latchKeys_fki (s : State) (n : Nat) : (s.latchKeys n).fki = s.fki.writeRange (s.fk.readRange n) := rfl
@[simp] theorem State.latchKeys_ski (s : State) (n : Nat) : (s.latchKeys n).ski = s.ski.writeRange (s.sk.readRange n) := rfl
@[simp] theorem State.latchKeys_src (s : State) (n : Nat) : (s.latchKeys n).src = s.src := rfl
@[simp] theorem State.latchKeys_dst (s : State) (n : Nat) : (s.latchKeys n).dst = s.dst := rfl
@[simp] theorem State.latchKeys_drawn (s : State) (n : Nat) : (s.latchKeys n).drawn = s.drawn := rfl
@[simp] theorem State.latchKeys_history (s : State) (n : Nat) : (s.latchKeys n).history = s.history := rfl
@[simp] theorem State.latchKeys_sched (s : State) (n : Nat) : (s.latchKeys n).sched = s.sched := rfl
@[simp] theorem State.latchKeys_hostProg (s : State) (n : Nat) : (s.latchKeys n).hostProg = s.hostProg := rfl
@[simp] theorem State.latchKeys_hostVar (s : State) (n : Nat) : (s.latchKeys n).hostVar = s.hostVar := rfl

@[simp] theorem State.moveResult_params (s : State) : (s.moveResult).params = s.params := rfl
@[simp] theorem State.moveResult_cmd (s : State) : (s.moveResult).cmd = s.cmd := rfl
@[simp] theorem State.moveResult_status (s : State) : (s.moveResult).status = s.status := rfl
@[simp] theorem State.moveResult_errinfo (s : State) : (s.moveResult).errinfo = s.errinfo := rfl
@[simp] theorem State.moveResult_keyLen (s : State) : (s.moveResult).keyLen = s.keyLen := rfl
@[simp] theorem State.moveResult_tpN (s : State) : (s.moveResult).tpN = s.tpN := rfl
@[simp] theorem State.moveResult_tpSkLen (s : State) : (s.moveResult).tpSkLen = s.tpSkLen := rfl
@[simp] theorem State.moveResult_srcLen (s : State) : (s.moveResult).srcLen = s.dstLen := rfl
@[simp] theorem State.moveResult_dstLen (s : State) : (s.moveResult).dstLen = s.dstLen := rfl
@[simp] theorem State.moveResult_key (s : State) : (s.moveResult).key = s.key := rfl
@[simp] theorem State.moveResult_flow (s : State) : (s.moveResult).flow = s.flow := rfl
@[simp] theorem State.moveResult_rk (s : State) : (s.moveResult).rk = s.rk := rfl
@[simp] theorem State.moveResult_rkDraw (s : State) : (s.moveResult).rkDraw = s.rkDraw := rfl
@[simp] theorem State.moveResult_fk (s : State) : (s.moveResult).fk = s.fk := rfl
@[simp] theorem State.moveResult_sk (s : State) : (s.moveResult).sk = s.sk := rfl
@[simp] theorem State.moveResult_ni (s : State) : (s.moveResult).ni = s.ni := rfl
@[simp] theorem State.moveResult_fki (s : State) : (s.moveResult).fki = s.fki := rfl
@[simp] theorem State.moveResult_ski (s : State) : (s.moveResult).ski = s.ski := rfl
@[simp] theorem State.moveResult_src (s : State) : (s.moveResult).src = s.src.writeRange 0 (s.dst.readRange 0 s.dstLen.toNat) := rfl
@[simp] theorem State.moveResult_dst (s : State) : (s.moveResult).dst = s.dst := rfl
@[simp] theorem State.moveResult_drawn (s : State) : (s.moveResult).drawn = s.drawn := rfl
@[simp] theorem State.moveResult_history (s : State) : (s.moveResult).history = s.history := rfl
@[simp] theorem State.moveResult_sched (s : State) : (s.moveResult).sched = s.sched := rfl
@[simp] theorem State.moveResult_hostProg (s : State) : (s.moveResult).hostProg = s.hostProg := rfl
@[simp] theorem State.moveResult_hostVar (s : State) : (s.moveResult).hostVar = s.hostVar := rfl

@[simp] theorem State.popTurn_params (s : State) : (s.popTurn).params = s.params := rfl
@[simp] theorem State.popTurn_cmd (s : State) : (s.popTurn).cmd = s.cmd := rfl
@[simp] theorem State.popTurn_status (s : State) : (s.popTurn).status = s.status := rfl
@[simp] theorem State.popTurn_errinfo (s : State) : (s.popTurn).errinfo = s.errinfo := rfl
@[simp] theorem State.popTurn_keyLen (s : State) : (s.popTurn).keyLen = s.keyLen := rfl
@[simp] theorem State.popTurn_tpN (s : State) : (s.popTurn).tpN = s.tpN := rfl
@[simp] theorem State.popTurn_tpSkLen (s : State) : (s.popTurn).tpSkLen = s.tpSkLen := rfl
@[simp] theorem State.popTurn_srcLen (s : State) : (s.popTurn).srcLen = s.srcLen := rfl
@[simp] theorem State.popTurn_dstLen (s : State) : (s.popTurn).dstLen = s.dstLen := rfl
@[simp] theorem State.popTurn_key (s : State) : (s.popTurn).key = s.key := rfl
@[simp] theorem State.popTurn_flow (s : State) : (s.popTurn).flow = s.flow := rfl
@[simp] theorem State.popTurn_rk (s : State) : (s.popTurn).rk = s.rk := rfl
@[simp] theorem State.popTurn_rkDraw (s : State) : (s.popTurn).rkDraw = s.rkDraw := rfl
@[simp] theorem State.popTurn_fk (s : State) : (s.popTurn).fk = s.fk := rfl
@[simp] theorem State.popTurn_sk (s : State) : (s.popTurn).sk = s.sk := rfl
@[simp] theorem State.popTurn_ni (s : State) : (s.popTurn).ni = s.ni := rfl
@[simp] theorem State.popTurn_fki (s : State) : (s.popTurn).fki = s.fki := rfl
@[simp] theorem State.popTurn_ski (s : State) : (s.popTurn).ski = s.ski := rfl
@[simp] theorem State.popTurn_src (s : State) : (s.popTurn).src = s.src := rfl
@[simp] theorem State.popTurn_dst (s : State) : (s.popTurn).dst = s.dst := rfl
@[simp] theorem State.popTurn_drawn (s : State) : (s.popTurn).drawn = s.drawn := rfl
@[simp] theorem State.popTurn_history (s : State) : (s.popTurn).history = s.history := rfl
@[simp] theorem State.popTurn_sched (s : State) : (s.popTurn).sched = s.sched.tail := rfl
@[simp] theorem State.popTurn_hostProg (s : State) : (s.popTurn).hostProg = s.hostProg := rfl
@[simp] theorem State.popTurn_hostVar (s : State) : (s.popTurn).hostVar = s.hostVar := rfl

/-! ## Reset keeps what is not the core's -/

@[simp] theorem State.platformReset_params (s : State) : s.platformReset.params = s.params := rfl
@[simp] theorem State.platformReset_status (s : State) : s.platformReset.status = Status.reset := rfl
@[simp] theorem State.platformReset_history (s : State) : s.platformReset.history = s.history := rfl
@[simp] theorem State.platformReset_sched (s : State) : s.platformReset.sched = s.sched := rfl
@[simp] theorem State.platformReset_hostProg (s : State) : s.platformReset.hostProg = s.hostProg := rfl
@[simp] theorem State.platformReset_hostVar (s : State) : s.platformReset.hostVar = s.hostVar := rfl
@[simp] theorem State.platformReset_drawn (s : State) : s.platformReset.drawn = s.drawn + 7 := rfl
@[simp] theorem State.platformReset_src (s : State) : s.platformReset.src = ⟨[], s.drawn⟩ := rfl
@[simp] theorem State.platformReset_dst (s : State) : s.platformReset.dst = ⟨[], s.drawn + 1⟩ := rfl
@[simp] theorem State.platformReset_fk (s : State) : s.platformReset.fk = ⟨[], s.drawn + 2⟩ := rfl
@[simp] theorem State.platformReset_sk (s : State) : s.platformReset.sk = ⟨[], s.drawn + 3⟩ := rfl
@[simp] theorem State.platformReset_fki (s : State) : s.platformReset.fki = ⟨[], s.drawn + 4⟩ := rfl
@[simp] theorem State.platformReset_ski (s : State) : s.platformReset.ski = ⟨[], s.drawn + 5⟩ := rfl
@[simp] theorem State.platformReset_dstLen (s : State) : s.platformReset.dstLen = 0#32 := rfl
@[simp] theorem State.platformReset_errinfo (s : State) : s.platformReset.errinfo = 0#32 := rfl
@[simp] theorem State.platformReset_cmd (s : State) : s.platformReset.cmd = 0#32 := rfl
@[simp] theorem State.platformReset_rk (s : State) : s.platformReset.rk = Vector.replicate 16 0#32 := rfl
@[simp] theorem State.platformReset_ni (s : State) : s.platformReset.ni = 0#32 := rfl

end Sys2Proof.Machine
end

