-- ==== Sys2Proof/Laws/Exec.lean ====
section
/-! SUPPORT. What a complete step can do, said once: every command ends in a next state, which is an error raised in the
state at issue or the completion of a result state. -/

namespace Sys2Proof.Machine

/-! ## Ending a complete step -/

@[simp] theorem finish_ok (s t : State) : s.finish (.ok t) = t.complete := rfl

@[simp] theorem finish_error (s : State) (x : Raised) : s.finish (.error x) = s.raise x := rfl

@[simp] theorem finish_fails (s : State) (e : ErrorKind) (info : Word) : s.finish (fails e info) = s.raise ⟨e, info⟩ := rfl

/-! ## The checks of a rule -/

theorem needKeySchedule_ok {s t : State} {go : Rule} (h : s.needKeySchedule go = .ok t) :
    s.status.rkValid = true ∧ go = .ok t := by
  unfold State.needKeySchedule fails at h
  split at h
  · exact ⟨by assumption, h⟩
  · cases h

theorem needPermutationKeys_ok {s t : State} {go : Rule} (h : s.needPermutationKeys go = .ok t) :
    s.status.tpValid = true ∧ go = .ok t := by
  unfold State.needPermutationKeys fails at h
  split at h
  · exact ⟨by assumption, h⟩
  · cases h

theorem needSrcFits_ok {s t : State} {go : Rule} (h : s.needSrcFits go = .ok t) :
    s.srcLen.toNat ≤ s.params.maxlen ∧ go = .ok t := by
  unfold State.needSrcFits fails State.srcBytes at h
  split at h
  · cases h
  · exact ⟨by omega, h⟩

theorem needWholeBlocks_ok {s t : State} {go : Rule} (h : s.needWholeBlocks go = .ok t) :
    s.srcLen.toNat % 16 = 0 ∧ go = .ok t := by
  unfold State.needWholeBlocks fails State.srcBytes at h
  split at h
  · exact ⟨by assumption, h⟩
  · cases h

theorem needPaddedFits_ok {s t : State} {go : Rule} (h : s.needPaddedFits go = .ok t) :
    s.rowCount * s.keysSize ≤ s.params.maxlen ∧ go = .ok t := by
  unfold State.needPaddedFits fails at h
  split at h
  · cases h
  · exact ⟨by omega, h⟩

theorem needWholeRows_ok {s t : State} {go : Rule} (h : s.needWholeRows go = .ok t) :
    s.srcLen.toNat % s.ni.toNat = 0 ∧ go = .ok t := by
  unfold State.needWholeRows fails State.srcBytes State.keysSize at h
  split at h
  · exact ⟨by assumption, h⟩
  · cases h

section Passing

variable {s : State} (go : Rule)

theorem needKeySchedule_pass (h : s.status.rkValid = true) : s.needKeySchedule go = go := if_pos h

theorem needKeySchedule_stop (h : s.status.rkValid = false) : s.needKeySchedule go = fails .noKeySchedule 0#32 := by
  simp [State.needKeySchedule, h]

theorem needPermutationKeys_pass (h : s.status.tpValid = true) : s.needPermutationKeys go = go := if_pos h

theorem needPermutationKeys_stop (h : s.status.tpValid = false) :
    s.needPermutationKeys go = fails .noPermutationKeys 0#32 := by
  simp [State.needPermutationKeys, h]

theorem needSrcFits_pass (h : s.srcLen.toNat ≤ s.params.maxlen) : s.needSrcFits go = go := if_neg (not_lt.mpr h)

theorem needSrcFits_stop (h : s.params.maxlen < s.srcLen.toNat) :
    s.needSrcFits go = fails .lengthOverflow s.srcLen := if_pos h

theorem needWholeBlocks_pass (h : s.srcLen.toNat % 16 = 0) : s.needWholeBlocks go = go := if_pos h

theorem needWholeBlocks_stop (h : s.srcLen.toNat % 16 ≠ 0) :
    s.needWholeBlocks go = fails .invalidCiphertextLength s.srcLen := if_neg h

theorem needPaddedFits_pass (h : s.rowCount * s.keysSize ≤ s.params.maxlen) : s.needPaddedFits go = go :=
  if_neg (not_lt.mpr h)

theorem needPaddedFits_stop (h : s.params.maxlen < s.rowCount * s.keysSize) :
    s.needPaddedFits go = fails .lengthOverflow (BitVec.ofNat 32 (s.rowCount * s.keysSize)) := if_pos h

theorem needWholeRows_pass (h : s.srcLen.toNat % s.ni.toNat = 0) : s.needWholeRows go = go := if_pos h

theorem needWholeRows_stop (h : s.srcLen.toNat % s.ni.toNat ≠ 0) :
    s.needWholeRows go = fails .keyLengthMismatch s.srcLen := if_neg h

end Passing

/-! ## Every command -/

/-- The result state of each command, with the checks it has passed. -/
def ResultOf (s t : State) : Instr → Prop
  | .nop => t = s
  | .ksched => s.keyLen = 16#32 ∧ t = { s with rk := s.schedule, status := s.status.withKeySchedule }
  | .renc r => s.status.rkValid = true ∧ t = s.withFlow (encRound s.flowBlock (s.roundKey r))
  | .rdec r => s.status.rkValid = true ∧ t = s.withFlow (decRound s.flowBlock (s.roundKey r))
  | .benc => s.status.rkValid = true ∧ t = s.withFlow (encBlock s.roundKey s.flowBlock)
  | .bdec => s.status.rkValid = true ∧ t = s.withFlow (decBlock s.roundKey s.flowBlock)
  | .menc => s.status.rkValid = true ∧ s.srcLen.toNat ≤ s.params.maxlen ∧ t = s.writeResult s.encryptedMessage
  | .mdec nt => s.status.rkValid = true ∧ s.srcLen.toNat ≤ s.params.maxlen ∧ s.srcLen.toNat % 16 = 0 ∧
      t = s.writeResult (s.decryptedMessage.take (s.mdecLen nt))
  | .tcfg => (1 ≤ s.tpN.toNat ∧ s.tpN.toNat ≤ s.params.nmax) ∧ s.tpSkLen = s.tpN ∧
      firstOffending s.tpN.toNat [] 0 (s.fk.readRange s.tpN.toNat) = none ∧
      firstOffending s.tpN.toNat [] 0 (s.sk.readRange s.tpN.toNat) = none ∧ t = s.latchKeys s.tpN.toNat
  | .tenc => s.status.tpValid = true ∧ s.srcLen.toNat ≤ s.params.maxlen ∧
      s.rowCount * s.keysSize ≤ s.params.maxlen ∧ t = s.writeResult s.transposed
  | .tdec nt => s.status.tpValid = true ∧ s.srcLen.toNat ≤ s.params.maxlen ∧ s.srcLen.toNat % s.ni.toNat = 0 ∧
      t = s.writeResult (if nt then s.untransposed else stripPads s.untransposed)
  | .trimz => s.srcLen.toNat ≤ s.params.maxlen ∧ s.srcLen.toNat % 16 = 0 ∧
      t = s.writeResult (s.src.readRange 0 (trimzLen (s.src.readRange 0 s.srcBytes) s.srcBytes))
  | .trimp => s.srcLen.toNat ≤ s.params.maxlen ∧ t = s.writeResult (stripPads (s.src.readRange 0 s.srcBytes))
  | .move => t = s.moveResult

theorem tcfgRule_ok {s t : State} (h : s.tcfgRule = .ok t) : ResultOf s t .tcfg := by
  simp only [State.tcfgRule, fails] at h
  split at h
  · cases h
  rename_i hn
  split at h
  · cases h
  rename_i hk
  split at h
  · cases h
  rename_i h1
  split at h
  · cases h
  rename_i h2
  cases h
  exact ⟨by omega, not_not.mp hk, h1, h2, rfl⟩

/-- WHAT EXEC CAN DO: a command finishes by a rule whose results are those of `ResultOf`. -/
theorem exec_rule (i : Instr) (s : State) :
    ∃ rule : Rule, exec i s = .next (s.finish rule) ∧ ∀ t, rule = .ok t → ResultOf s t i := by
  cases i with
  | nop => exact ⟨_, rfl, fun t h => by cases h; rfl⟩
  | ksched =>
    refine ⟨_, rfl, fun t h => ?_⟩
    unfold State.kschedRule fails at h
    split at h
    · cases h
      exact ⟨by assumption, rfl⟩
    · cases h
  | renc r =>
    refine ⟨_, rfl, fun t h => ?_⟩
    obtain ⟨h1, h⟩ := needKeySchedule_ok h
    cases h
    exact ⟨h1, rfl⟩
  | rdec r =>
    refine ⟨_, rfl, fun t h => ?_⟩
    obtain ⟨h1, h⟩ := needKeySchedule_ok h
    cases h
    exact ⟨h1, rfl⟩
  | benc =>
    refine ⟨_, rfl, fun t h => ?_⟩
    obtain ⟨h1, h⟩ := needKeySchedule_ok h
    cases h
    exact ⟨h1, rfl⟩
  | bdec =>
    refine ⟨_, rfl, fun t h => ?_⟩
    obtain ⟨h1, h⟩ := needKeySchedule_ok h
    cases h
    exact ⟨h1, rfl⟩
  | menc =>
    refine ⟨_, rfl, fun t h => ?_⟩
    obtain ⟨h1, h⟩ := needKeySchedule_ok h
    obtain ⟨h2, h⟩ := needSrcFits_ok h
    cases h
    exact ⟨h1, h2, rfl⟩
  | mdec nt =>
    refine ⟨_, rfl, fun t h => ?_⟩
    obtain ⟨h1, h⟩ := needKeySchedule_ok h
    obtain ⟨h2, h⟩ := needSrcFits_ok h
    obtain ⟨h3, h⟩ := needWholeBlocks_ok h
    cases h
    exact ⟨h1, h2, h3, rfl⟩
  | tcfg => exact ⟨_, rfl, fun t h => tcfgRule_ok h⟩
  | tenc =>
    refine ⟨_, rfl, fun t h => ?_⟩
    obtain ⟨h1, h⟩ := needPermutationKeys_ok h
    obtain ⟨h2, h⟩ := needSrcFits_ok h
    obtain ⟨h3, h⟩ := needPaddedFits_ok h
    cases h
    exact ⟨h1, h2, h3, rfl⟩
  | tdec nt =>
    refine ⟨_, rfl, fun t h => ?_⟩
    obtain ⟨h1, h⟩ := needPermutationKeys_ok h
    obtain ⟨h2, h⟩ := needSrcFits_ok h
    obtain ⟨h3, h⟩ := needWholeRows_ok h
    cases h
    exact ⟨h1, h2, h3, rfl⟩
  | trimz =>
    refine ⟨_, rfl, fun t h => ?_⟩
    obtain ⟨h2, h⟩ := needSrcFits_ok h
    obtain ⟨h3, h⟩ := needWholeBlocks_ok h
    cases h
    exact ⟨h2, h3, rfl⟩
  | trimp =>
    refine ⟨_, rfl, fun t h => ?_⟩
    obtain ⟨h2, h⟩ := needSrcFits_ok h
    cases h
    exact ⟨h2, rfl⟩
  | move => exact ⟨_, rfl, fun t h => by cases h; rfl⟩

/-- A next state of a command: the completion of its result, or an error raised in the state at issue. -/
theorem exec_cases {i : Instr} {s t : State} (h : exec i s = .next t) :
    (∃ r, ResultOf s r i ∧ t = r.complete) ∨ ∃ x, t = s.raise x := by
  obtain ⟨rule, hr, hok⟩ := exec_rule i s
  rw [hr] at h
  cases h
  cases rule with
  | ok r => exact .inl ⟨r, hok r rfl, rfl⟩
  | error x => exact .inr ⟨x, rfl⟩

/-- A command whose ERR is clear before and after it has succeeded. -/
theorem exec_succeeded {i : Instr} {s t : State} (h : exec i s = .next t) (ht : t.status.err = false) :
    ∃ r, ResultOf s r i ∧ t = r.complete := by
  rcases exec_cases h with hr | ⟨x, rfl⟩
  · exact hr
  · simp at ht

/-- A result state keeps ERR, ERRCODE, BUSY and DONE, and everything that belongs to the Host and the schedule. -/
theorem ResultOf.keeps {i : Instr} {s r : State} (h : ResultOf s r i) :
    r.status.err = s.status.err ∧ r.status.errcode = s.status.errcode ∧ r.errinfo = s.errinfo ∧
      r.params = s.params ∧ r.cmd = s.cmd ∧ r.history = s.history ∧ r.sched = s.sched ∧
      r.hostProg = s.hostProg ∧ r.hostVar = s.hostVar ∧ r.key = s.key ∧ r.keyLen = s.keyLen ∧ r.tpN = s.tpN ∧
      r.tpSkLen = s.tpSkLen ∧ r.fk = s.fk ∧ r.sk = s.sk ∧ r.rkDraw = s.rkDraw := by
  cases i <;> simp only [ResultOf] at h <;> (try obtain rfl := h) <;>
    (try obtain ⟨_, rfl⟩ := h) <;> (try obtain ⟨_, _, rfl⟩ := h) <;> (try obtain ⟨_, _, _, rfl⟩ := h) <;>
    (try obtain ⟨_, _, _, _, rfl⟩ := h) <;> simp

end Sys2Proof.Machine
end

