-- ==== Sys2Proof/Laws/Grid.lean ====
section
/-! SUPPORT. The grid algebra: what a scatter writes when its positions are distinct, where the cell of a flattened grid
stands, what a validated permutation key is, and what the pad trim leaves. -/

namespace Sys2Proof.Machine

/-! ## Scatter -/

theorem foldl_set_length (ws : List (Nat × Byte)) : ∀ acc : List Byte,
    (ws.foldl (fun acc w => acc.set w.1 w.2) acc).length = acc.length := by
  induction ws with
  | nil => exact fun acc => rfl
  | cons w ws ih =>
    intro acc
    rw [List.foldl_cons, ih, List.length_set]

@[simp] theorem scatter_length (M : Nat) (ws : List (Nat × Byte)) : (scatter M ws).length = M := by
  rw [scatter, foldl_set_length, List.length_replicate]

/-- A position that no write names keeps its value. -/
theorem foldl_set_other {p : Nat} (ws : List (Nat × Byte)) : ∀ acc : List Byte, (∀ w ∈ ws, w.1 ≠ p) →
    (ws.foldl (fun acc w => acc.set w.1 w.2) acc)[p]? = acc[p]? := by
  induction ws with
  | nil => exact fun acc _ => rfl
  | cons w ws ih =>
    intro acc h
    rw [List.foldl_cons, ih _ (fun w' hw => h w' (List.mem_cons_of_mem _ hw)),
      List.getElem?_set_ne (h w List.mem_cons_self)]

/-- With distinct positions inside the string, every write stands (R141: "every position is written exactly once"). -/
theorem scatter_get {M : Nat} {ws : List (Nat × Byte)} (hd : (ws.map Prod.fst).Nodup) {w : Nat × Byte}
    (hw : w ∈ ws) (hM : w.1 < M) : byteAt (scatter M ws) w.1 = w.2 := by
  unfold scatter
  have key : ∀ (ws : List (Nat × Byte)) (acc : List Byte), (ws.map Prod.fst).Nodup → w ∈ ws → w.1 < acc.length →
      (ws.foldl (fun acc w => acc.set w.1 w.2) acc)[w.1]? = some w.2 := by
    intro ws
    induction ws with
    | nil => exact fun acc _ h => absurd h List.not_mem_nil
    | cons v ws ih =>
      intro acc hd hw hl
      rw [List.map_cons, List.nodup_cons] at hd
      rw [List.foldl_cons]
      rcases List.mem_cons.mp hw with rfl | hw
      · rw [foldl_set_other]
        · simp [hl]
        · intro w' hw' he
          exact hd.1 (he ▸ List.mem_map_of_mem hw')
      · exact ih _ hd.2 hw (by simpa using hl)
  rw [byteAt, List.getD_eq_getElem?_getD, key ws _ hd hw (by simpa using hM)]
  rfl

/-! ## Grids -/

theorem mem_gridWrites {rows cols : Nat} {pos : Nat → Nat → Nat} {cell : Nat → Nat → Byte} {i j : Nat}
    (hi : i < rows) (hj : j < cols) : (pos i j, cell i j) ∈ gridWrites rows cols pos cell := by
  simp only [gridWrites, List.mem_flatMap, List.mem_map, List.mem_range]
  exact ⟨i, hi, j, hj, rfl⟩

/-- The writes of a grid have distinct positions when `pos` is injective on the grid. -/
theorem gridWrites_nodup {rows cols : Nat} {pos : Nat → Nat → Nat} {cell : Nat → Nat → Byte}
    (h : ∀ i j i' j', i < rows → j < cols → i' < rows → j' < cols → pos i j = pos i' j' → i = i' ∧ j = j') :
    ((gridWrites rows cols pos cell).map Prod.fst).Nodup := by
  have e : (gridWrites rows cols pos cell).map Prod.fst =
      (List.range rows).flatMap fun i => (List.range cols).map fun j => pos i j := by
    simp [gridWrites, List.map_flatMap, Function.comp_def]
  rw [e, List.nodup_flatMap]
  constructor
  · intro i hi
    refine List.Nodup.map_on ?_ List.nodup_range
    intro j hj j' hj' hp
    simp only [List.mem_range] at hi hj hj'
    exact (h i j i j' hi hj hi hj' hp).2
  · refine List.Pairwise.imp_of_mem ?_ (List.nodup_range (n := rows))
    intro i i' hi hi' hne
    simp only [List.mem_range] at hi hi'
    intro p hp hp'
    simp only [List.mem_map, List.mem_range] at hp hp'
    obtain ⟨j, hj, rfl⟩ := hp
    obtain ⟨j', hj', he⟩ := hp'
    exact hne (h i j i' j' hi hj hi' hj' he.symm).1

@[simp] theorem flatGrid_length (rows cols : Nat) (cell : Nat → Nat → Byte) :
    (flatGrid rows cols cell).length = rows * cols := by
  simp [flatGrid, List.length_flatMap]

/-- Cell (i, j) of a grid stands at i*cols + j of its flattened string. -/
theorem byteAt_flatGrid {rows cols i j : Nat} (cell : Nat → Nat → Byte) (hi : i < rows) (hj : j < cols) :
    byteAt (flatGrid rows cols cell) (i * cols + j) = cell i j := by
  have key : ∀ n, i < n → ((List.range n).flatMap fun i => (List.range cols).map fun j => cell i j)[i * cols + j]? =
      some (cell i j) := by
    intro n
    induction n with
    | zero => exact fun h => absurd h (Nat.not_lt_zero i)
    | succ n ih =>
      intro hi
      have hl : ((List.range n).flatMap fun i => (List.range cols).map fun j => cell i j).length = n * cols := by
        simp [List.length_flatMap]
      rw [List.range_succ, List.flatMap_append]
      by_cases h : i < n
      · have : i * cols + j < n * cols := by
          calc i * cols + j < i * cols + cols := by omega
            _ = (i + 1) * cols := by ring
            _ ≤ n * cols := Nat.mul_le_mul_right cols h
        rw [List.getElem?_append_left (by omega)]
        exact ih h
      · have : i = n := by omega
        subst this
        rw [List.getElem?_append_right (by omega), hl]
        simp [hj]
  rw [byteAt, List.getD_eq_getElem?_getD, flatGrid, key rows hi]
  rfl

/-- Every position below rows*cols is the position of one cell. -/
theorem grid_div_mod {rows cols p : Nat} (h : p < rows * cols) :
    p / cols < rows ∧ p % cols < cols ∧ p / cols * cols + p % cols = p := by
  have hc : 0 < cols := by
    rcases Nat.eq_zero_or_pos cols with rfl | hc
    · simp at h
    · exact hc
  exact ⟨Nat.div_lt_of_lt_mul (by rwa [Nat.mul_comm] at h), Nat.mod_lt _ hc, Nat.div_add_mod' p cols⟩

theorem grid_lt {rows cols i j : Nat} (hi : i < rows) (hj : j < cols) : i * cols + j < rows * cols := by
  calc i * cols + j < i * cols + cols := by omega
    _ = (i + 1) * cols := by ring
    _ ≤ rows * cols := Nat.mul_le_mul_right cols hi

theorem grid_div {cols i j : Nat} (hj : j < cols) : (i * cols + j) / cols = i := by
  have hc : 0 < cols := by omega
  rw [Nat.mul_comm, Nat.mul_add_div hc, Nat.div_eq_of_lt hj, Nat.add_zero]

theorem grid_mod {cols i j : Nat} (hj : j < cols) : (i * cols + j) % cols = j := by
  rw [Nat.mul_comm, Nat.mul_add_mod, Nat.mod_eq_of_lt hj]

/-! ## Validated keys -/

/-- The key check passes exactly when every value is in range, new against `seen`, and new against those before it. -/
theorem firstOffending_none (n : Nat) (vs : List Word) : ∀ (seen : List Word) (j : Nat),
    firstOffending n seen j vs = none ↔
      (∀ v ∈ vs, (1 ≤ v.toNat ∧ v.toNat ≤ n) ∧ v ∉ seen) ∧ vs.Nodup := by
  induction vs with
  | nil => simp [firstOffending]
  | cons v vs ih =>
    intro seen j
    unfold firstOffending
    split
    · rename_i h
      simp only [reduceCtorEq, false_iff, not_and]
      intro hv
      have := hv v List.mem_cons_self
      rcases h with h | h | h
      · omega
      · omega
      · exact absurd h this.2
    · rename_i h
      rw [not_or, not_or] at h
      rw [ih]
      simp only [List.mem_append, not_or, List.mem_cons, forall_eq_or_imp, List.nodup_cons, List.not_mem_nil,
        not_false_eq_true, and_true]
      constructor
      · rintro ⟨h1, h2⟩
        refine ⟨⟨⟨by omega, h.2.2⟩, fun w hw => ⟨(h1 w hw).1, (h1 w hw).2.1⟩⟩, fun hm => (h1 v hm).2.2 rfl, h2⟩
      · rintro ⟨⟨_, h1⟩, h2, h3⟩
        exact ⟨fun w hw => ⟨(h1 w hw).1, (h1 w hw).2, fun e => h2 (e ▸ hw)⟩, h3⟩

/-- The key check reports the first offending index. -/
theorem firstOffending_some (n : Nat) (vs : List Word) : ∀ (seen : List Word) (j k : Nat),
    firstOffending n seen j vs = some k ↔
      ∃ i, k = j + i ∧ ∃ hi : i < vs.length,
        (vs[i].toNat < 1 ∨ n < vs[i].toNat ∨ vs[i] ∈ seen ++ vs.take i) ∧
        ∀ (m : Nat) (hm : m < i), ¬ (vs[m].toNat < 1 ∨ n < vs[m].toNat ∨ vs[m] ∈ seen ++ vs.take m) := by
  induction vs with
  | nil => simp [firstOffending]
  | cons v vs ih =>
    intro seen j k
    unfold firstOffending
    split
    · rename_i h
      constructor
      · intro e
        cases e
        exact ⟨0, rfl, by simp, by simpa using h, fun m hm => by omega⟩
      · rintro ⟨i, rfl, hi, _, hm⟩
        rcases Nat.eq_zero_or_pos i with rfl | hi'
        · rfl
        · exact absurd (by simpa using h) (hm 0 hi')
    · rename_i h
      rw [ih]
      constructor
      · rintro ⟨i, rfl, hi, ho, hm⟩
        refine ⟨i + 1, by omega, by simpa using hi, by simpa using ho, fun m hm' => ?_⟩
        cases m with
        | zero => simpa using h
        | succ m => simpa using hm m (by omega)
      · rintro ⟨i, rfl, hi, ho, hm⟩
        cases i with
        | zero => exact absurd (by simpa using ho) h
        | succ i =>
          refine ⟨i, by omega, by simpa using hi, by simpa using ho, fun m hm' => ?_⟩
          simpa using hm (m + 1) (by omega)

/-! ## The pad trim -/

theorem leadingPads_spec (O : List Byte) :
    leadingPads O ≤ O.length ∧ (∀ k, k < leadingPads O → byteAt O k = pad) ∧
      (leadingPads O < O.length → byteAt O (leadingPads O) ≠ pad) := by
  induction O with
  | nil => simp [leadingPads]
  | cons b bs ih =>
    unfold leadingPads
    split
    · rename_i h
      obtain ⟨h1, h2, h3⟩ := ih
      refine ⟨by simpa using h1, fun k hk => ?_, fun hl => ?_⟩
      · cases k with
        | zero => simpa [byteAt] using h
        | succ k => simpa [byteAt] using h2 k (by omega)
      · simpa [byteAt] using h3 (by simpa using hl)
    · rename_i h
      exact ⟨by simp, fun k hk => by omega, fun _ => by simpa [byteAt] using h⟩

theorem trimPads_spec (O : List Byte) (a : Nat) : ∀ e, a ≤ e →
    a ≤ trimPads O a e ∧ trimPads O a e ≤ e ∧ (∀ k, trimPads O a e ≤ k → k < e → byteAt O k = pad) ∧
      (trimPads O a e = a ∨ byteAt O (trimPads O a e - 1) ≠ pad) := by
  intro e
  induction e with
  | zero => intro h; exact ⟨h, le_rfl, fun k _ hk => absurd hk (Nat.not_lt_zero k), .inl (by simp [trimPads]; omega)⟩
  | succ e ih =>
    intro h
    unfold trimPads
    split
    · rename_i hc
      obtain ⟨h1, h2, h3, h4⟩ := ih (by omega)
      refine ⟨h1, by omega, fun k hk hk' => ?_, h4⟩
      by_cases hn : k = e
      · exact hn ▸ hc.2
      · exact h3 k hk (by omega)
    · rename_i hc
      refine ⟨h, le_rfl, fun k hk hk' => by omega, ?_⟩
      by_cases hf : a < e + 1
      · exact .inr (fun e' => hc ⟨hf, by simpa using e'⟩)
      · exact .inl (by omega)

/-- What STRIP keeps (R145): the bytes from the first that is no pad to the last that is none. -/
theorem stripPads_spec (O : List Byte) :
    leadingPads O + (stripPads O).length ≤ O.length ∧
      (∀ k, k < (stripPads O).length → byteAt (stripPads O) k = byteAt O (leadingPads O + k)) ∧
      (∀ k, k < leadingPads O → byteAt O k = pad) ∧
      (∀ k, leadingPads O + (stripPads O).length ≤ k → k < O.length → byteAt O k = pad) ∧
      ((stripPads O).length ≠ 0 →
        byteAt O (leadingPads O) ≠ pad ∧ byteAt O (leadingPads O + (stripPads O).length - 1) ≠ pad) := by
  obtain ⟨a1, a2, a3⟩ := leadingPads_spec O
  obtain ⟨e1, e2, e3, e4⟩ := trimPads_spec O (leadingPads O) O.length a1
  have hl : (stripPads O).length = trimPads O (leadingPads O) O.length - leadingPads O := by
    simp only [stripPads, List.length_drop, List.length_take]
    omega
  refine ⟨by omega, fun k hk => ?_, a2, fun k hk hk' => e3 k (by omega) hk', fun hn => ⟨a3 (by omega), ?_⟩⟩
  · simp only [stripPads, byteAt, List.getD_eq_getElem?_getD, List.getElem?_drop]
    rw [List.getElem?_take_of_lt (by omega)]
  · have : leadingPads O + (stripPads O).length = trimPads O (leadingPads O) O.length := by omega
    rw [this]
    exact e4.resolve_left (by omega)

/-! ## Rearrangements -/

theorem eq_map_byteAt (l : List Byte) : l = (List.range l.length).map (byteAt l) := by
  apply List.ext_getElem (by simp)
  intro k h1 h2
  simp [byteAt, h1]

theorem byteAt_ext {a b : List Byte} (hl : a.length = b.length) (h : ∀ k, k < a.length → byteAt a k = byteAt b k) :
    a = b := by
  apply List.ext_getElem hl
  intro k h1 h2
  have := h k h1
  simpa [byteAt, h1, h2] using this

theorem gridWrites_snd (rows cols : Nat) (pos : Nat → Nat → Nat) (cell : Nat → Nat → Byte) :
    (gridWrites rows cols pos cell).map Prod.snd = flatGrid rows cols cell := by
  simp [gridWrites, flatGrid, List.map_flatMap, Function.comp_def]

theorem gridWrites_length (rows cols : Nat) (pos : Nat → Nat → Nat) (cell : Nat → Nat → Byte) :
    (gridWrites rows cols pos cell).length = rows * cols := by
  have := congrArg List.length (gridWrites_snd rows cols pos cell)
  simpa using this

/-- Writing each position of a string once gives the written bytes in another order. -/
theorem scatter_perm {M : Nat} {ws : List (Nat × Byte)} (hd : (ws.map Prod.fst).Nodup) (hlt : ∀ w ∈ ws, w.1 < M)
    (hl : ws.length = M) : (scatter M ws).Perm (ws.map Prod.snd) := by
  have hp : (ws.map Prod.fst).Perm (List.range M) := by
    apply List.Subperm.perm_of_length_le
    · apply List.subperm_of_subset hd
      intro a ha
      obtain ⟨w, hw, rfl⟩ := List.mem_map.mp ha
      exact List.mem_range.mpr (hlt w hw)
    · simp [hl]
  have e1 : scatter M ws = (List.range M).map (byteAt (scatter M ws)) := by
    have := eq_map_byteAt (scatter M ws)
    rwa [scatter_length] at this
  have e2 : ws.map Prod.snd = (ws.map Prod.fst).map (byteAt (scatter M ws)) := by
    rw [List.map_map]
    exact List.map_congr_left fun w hw => (scatter_get hd hw (hlt w hw)).symm
  rw [e1, e2]
  exact (hp.map _).symm

end Sys2Proof.Machine
end

