-- ==== Sys2Proof/Laws/PerInstr.lean ====
section
/-! SUPPORT. Families of statements about every command as syntax, one lemma a constructor. -/

namespace Sys2Proof.Laws.Encoded

/-- The word of a well-formed command matches a row of the opcode map, and that row reads the command back from it. -/
def Statement (i : Instr) : Prop :=
  i.WellFormed → ∃ row ∈ opTable, row.matches (encode i) = true ∧ row.build (encode i) = i

theorem ridx_row (r : Fin 16) :
    (∃ row ∈ opTable, row.matches (encode (.renc r)) = true ∧ row.build (encode (.renc r)) = .renc r) ∧
      ∃ row ∈ opTable, row.matches (encode (.rdec r)) = true ∧ row.build (encode (.rdec r)) = .rdec r := by
  revert r
  decide

theorem nop : Statement .nop := fun _ => by decide

theorem ksched : Statement .ksched := fun _ => by decide

theorem renc (r : Nat) : Statement (.renc r) := fun h => (ridx_row ⟨r, of_decide_eq_true h⟩).1

theorem rdec (r : Nat) : Statement (.rdec r) := fun h => (ridx_row ⟨r, of_decide_eq_true h⟩).2

theorem benc : Statement .benc := fun _ => by decide

theorem bdec : Statement .bdec := fun _ => by decide

theorem menc : Statement .menc := fun _ => by decide

theorem mdec (notrim : Bool) : Statement (.mdec notrim) := fun _ => by revert notrim; decide

theorem tcfg : Statement .tcfg := fun _ => by decide

theorem tenc : Statement .tenc := fun _ => by decide

theorem tdec (notrim : Bool) : Statement (.tdec notrim) := fun _ => by revert notrim; decide

theorem trimz : Statement .trimz := fun _ => by decide

theorem trimp : Statement .trimp := fun _ => by decide

theorem move : Statement .move := fun _ => by decide

end Sys2Proof.Laws.Encoded
end

