-- ==== Sys2Proof/Laws/Step.lean ====
section
/-! SUPPORT. What a bus access, a Host turn, an engine's turn and a step can do, each said once. -/

namespace Sys2Proof.Machine

/-! ## The bus -/

/-- A read changes nothing but the count of draws. -/
theorem busRead_state (s : State) (off : Nat) : ∃ d, (s.busRead off).2 = { s with drawn := d } := by
  simp only [State.busRead]
  split
  · exact ⟨_, rfl⟩
  · exact ⟨s.drawn, rfl⟩

/-- A read of an idle core: the value that stands there, and no change. -/
theorem busRead_idle {s : State} (h : s.status.busy = false) (off : Nat) :
    s.busRead off = (s.valueAt (targetAt s.params off), s) := by
  simp [State.busRead, h]

theorem busWrite_idle {s : State} (h : s.status.busy = false) (off : Nat) (v : Word) :
    s.busWrite off v = s.storeAt (targetAt s.params off) v := by
  simp [State.busWrite, h]

theorem busWrite_busy {s : State} (h : s.status.busy = true) (off : Nat) (v : Word) : s.busWrite off v = s := by
  simp [State.busWrite, h]

/-- WHAT A WRITE CAN DO: nothing, or, on an idle core, store to the target of its offset. -/
theorem busWrite_cases (s : State) (off : Nat) (v : Word) :
    s.busWrite off v = s ∨
      (s.status.busy = false ∧ s.busWrite off v = s.storeAt (targetAt s.params off) v) := by
  cases h : s.status.busy
  · exact .inr ⟨rfl, busWrite_idle h off v⟩
  · exact .inl (busWrite_busy h off v)

/-! ## Targets -/

/-- Only a register stands below offset 0x1000. -/
theorem registerAt_cases (w : Nat) :
    (∀ j, registerAt w ≠ .fk j) ∧ (∀ j, registerAt w ≠ .sk j) ∧ (∀ q, registerAt w ≠ .src q) ∧
      ∀ q, registerAt w ≠ .dst q := by
  unfold registerAt
  split <;> (try simp)
  split <;> simp

theorem within_eq {P : Prop} [Decidable P] {t u : Target} (h : within P t = u) (hu : u ≠ .unmapped) : P ∧ t = u := by
  unfold within at h
  split at h
  · exact ⟨by assumption, h⟩
  · exact absurd h.symm hu

/-- WHAT STANDS AT AN OFFSET: a register, or an entry inside its table or buffer at the entry's own offset, or nothing. -/
theorem targetAt_cases (p : Params) (off : Nat) :
    (off < 0x1000 ∧ targetAt p off = registerAt (off / 4)) ∨
      (∃ j, targetAt p off = .fk j ∧ j < p.nmax ∧ j = (off - 0x1000) / 4 ∧ 0x1000 ≤ off ∧ off < 0x2000) ∨
      (∃ j, targetAt p off = .sk j ∧ j < p.nmax ∧ j = (off - 0x2000) / 4 ∧ 0x2000 ≤ off ∧ off < 0x3000) ∨
      (∃ q, targetAt p off = .src q ∧ 4 * q < p.maxlen ∧ q = (off - 0x10000) / 4 ∧ 0x10000 ≤ off ∧ off < 0x20000) ∨
      (∃ q, targetAt p off = .dst q ∧ 4 * q < p.maxlen ∧ q = (off - 0x20000) / 4 ∧ 0x20000 ≤ off ∧ off < 0x30000) ∨
      (0x1000 ≤ off ∧ targetAt p off = .unmapped) := by
  unfold targetAt within windowBytes
  by_cases h1 : off < 0x1000
  · exact .inl ⟨h1, if_pos h1⟩
  rw [if_neg h1]
  by_cases h2 : off < 0x2000
  · rw [if_pos h2]
    split
    · exact .inr (.inl ⟨_, rfl, by assumption, rfl, by omega, h2⟩)
    · exact .inr (.inr (.inr (.inr (.inr ⟨by omega, rfl⟩))))
  rw [if_neg h2]
  by_cases h3 : off < 0x3000
  · rw [if_pos h3]
    split
    · exact .inr (.inr (.inl ⟨_, rfl, by assumption, rfl, by omega, h3⟩))
    · exact .inr (.inr (.inr (.inr (.inr ⟨by omega, rfl⟩))))
  rw [if_neg h3]
  by_cases h4 : off < 0x10000
  · rw [if_pos h4]
    exact .inr (.inr (.inr (.inr (.inr ⟨by omega, rfl⟩))))
  rw [if_neg h4]
  by_cases h5 : off < 0x20000
  · rw [if_pos h5]
    split
    · exact .inr (.inr (.inr (.inl ⟨_, rfl, by assumption, rfl, by omega, h5⟩)))
    · exact .inr (.inr (.inr (.inr (.inr ⟨by omega, rfl⟩))))
  rw [if_neg h5]
  by_cases h6 : off < 0x30000
  · rw [if_pos h6]
    split
    · exact .inr (.inr (.inr (.inr (.inl ⟨_, rfl, by assumption, rfl, by omega, h6⟩))))
    · exact .inr (.inr (.inr (.inr (.inr ⟨by omega, rfl⟩))))
  · rw [if_neg h6]
    exact .inr (.inr (.inr (.inr (.inr ⟨by omega, rfl⟩))))

/-- The target of an aligned offset of each table and buffer, when it is present. -/
theorem targetAt_fk (p : Params) {j : Nat} (h : j < p.nmax) (hj : j < 1024) : targetAt p (0x1000 + 4 * j) = .fk j := by
  have h1 : ¬ 0x1000 + 4 * j < 0x1000 := by omega
  have h2 : 0x1000 + 4 * j < 0x2000 := by omega
  have h3 : (0x1000 + 4 * j - 0x1000) / 4 = j := by omega
  rw [targetAt, if_neg h1, if_pos h2, h3, within, if_pos h]

theorem targetAt_sk (p : Params) {j : Nat} (h : j < p.nmax) (hj : j < 1024) : targetAt p (0x2000 + 4 * j) = .sk j := by
  have h1 : ¬ 0x2000 + 4 * j < 0x1000 := by omega
  have h2 : ¬ 0x2000 + 4 * j < 0x2000 := by omega
  have h3 : 0x2000 + 4 * j < 0x3000 := by omega
  have h4 : (0x2000 + 4 * j - 0x2000) / 4 = j := by omega
  rw [targetAt, if_neg h1, if_neg h2, if_pos h3, h4, within, if_pos h]

theorem targetAt_src (p : Params) {q : Nat} (h : 4 * q < p.maxlen) (hq : 4 * q < 0x10000) :
    targetAt p (0x10000 + 4 * q) = .src q := by
  have h1 : ¬ 0x10000 + 4 * q < 0x1000 := by omega
  have h2 : ¬ 0x10000 + 4 * q < 0x2000 := by omega
  have h3 : ¬ 0x10000 + 4 * q < 0x3000 := by omega
  have h4 : ¬ 0x10000 + 4 * q < 0x10000 := by omega
  have h5 : 0x10000 + 4 * q < 0x20000 := by omega
  have h6 : (0x10000 + 4 * q - 0x10000) / 4 = q := by omega
  rw [targetAt, if_neg h1, if_neg h2, if_neg h3, if_neg h4, if_pos h5, h6, within, if_pos h]

theorem targetAt_dst (p : Params) {q : Nat} (h : 4 * q < p.maxlen) (hq : 4 * q < 0x10000) :
    targetAt p (0x20000 + 4 * q) = .dst q := by
  have h1 : ¬ 0x20000 + 4 * q < 0x1000 := by omega
  have h2 : ¬ 0x20000 + 4 * q < 0x2000 := by omega
  have h3 : ¬ 0x20000 + 4 * q < 0x3000 := by omega
  have h4 : ¬ 0x20000 + 4 * q < 0x10000 := by omega
  have h5 : ¬ 0x20000 + 4 * q < 0x20000 := by omega
  have h6 : 0x20000 + 4 * q < windowBytes := by unfold windowBytes; omega
  have h7 : (0x20000 + 4 * q - 0x20000) / 4 = q := by omega
  rw [targetAt, if_neg h1, if_neg h2, if_neg h3, if_neg h4, if_neg h5, if_pos h6, h7, within, if_pos h]

/-- A register's target: one of CMD, the staging registers, KEY and FLOW, or one that ignores writes. -/
theorem registerAt_fixed (w : Nat) : (∃ r, registerAt w = .rk r) ∨ registerAt w = .unmapped ∨
    registerAt w ∈ [Target.id, .cmd, .status, .errinfo, .keyLen, .tpN, .tpSkLen, .srcLen, .dstLen,
      .key 0, .key 1, .key 2, .key 3, .flow 0, .flow 1, .flow 2, .flow 3] := by
  unfold registerAt
  split
  all_goals first
    | (split <;> simp)
    | simp

/-! ## Turns -/

/-- WHAT A HOST TURN CAN DO: it leaves the core as it is but for the count of draws, or it is one bus write; beside that it
moves in its own program. -/
theorem hostTurn_next {s t : State} (h : s.hostTurn = .next t) :
    (∃ p v d, t = { s with hostProg := p, hostVar := v, drawn := d }) ∨
      ∃ p off w, t = { s.busWrite off w with hostProg := p } := by
  unfold State.hostTurn at h
  split at h
  · cases h
    exact .inl ⟨s.hostProg, s.hostVar, s.drawn, rfl⟩
  rename_i line rest hp
  split at h <;> try cases h
  rename_i u hu
  have hT : (∃ v d, u = { s with hostVar := v, drawn := d }) ∨ ∃ off w, u = s.busWrite off w := by
    unfold State.transact at hu
    split at hu <;> split at hu <;> cases hu
    · rename_i off _
      obtain ⟨d, hd⟩ := busRead_state s off
      exact .inl ⟨(s.busRead off).1, d, by rw [hd]⟩
    · rename_i off _
      exact .inr ⟨off, _, rfl⟩
  have hA : ∃ p, t = { u with hostProg := p } := by
    unfold State.afterLine at h
    split at h
    · cases h
      split
      · exact ⟨u.hostProg, rfl⟩
      · exact ⟨rest, rfl⟩
    · split at h <;> cases h
      exact ⟨rest, rfl⟩
    all_goals
      cases h
      exact ⟨rest, rfl⟩
  obtain ⟨p, rfl⟩ := hA
  rcases hT with ⟨v, d, rfl⟩ | ⟨off, w, rfl⟩
  · exact .inl ⟨p, v, d, rfl⟩
  · exact .inr ⟨p, off, w, rfl⟩

/-- WHAT A COMPLETE STEP CAN DO: the completion of a result of the decoded command, or an error raised. -/
theorem completeStep_cases {s t : State} (h : s.completeStep = .next t) :
    (∃ i r, decode s.cmd = .ok i ∧ ResultOf s r i ∧ t = r.complete) ∨ ∃ x, t = s.raise x := by
  unfold State.completeStep at h
  split at h
  · rename_i i hi
    rcases exec_cases h with ⟨r, hr, rfl⟩ | hx
    · exact .inl ⟨i, r, hi, hr, rfl⟩
    · exact .inr hx
  · cases h
    exact .inr ⟨_, rfl⟩

/-- A complete step always ends in a next state. -/
theorem completeStep_next (s : State) : ∃ t, s.completeStep = .next t := by
  unfold State.completeStep
  split
  · rename_i i _
    obtain ⟨rule, hr, _⟩ := exec_rule i s
    exact ⟨_, hr⟩
  · exact ⟨_, rfl⟩

/-- WHAT A STEP CAN DO, by who moves. -/
theorem step_cases {s t : State} (h : step s = .next t) :
    (s.mover = .host ∧ s.popTurn.hostTurn = .next t) ∨
      (s.mover = .engine ∧ s.status.busy = true ∧ s.popTurn.completeStep = .next t) ∨
      (s.mover = .engine ∧ s.status.busy = false ∧ t = s.popTurn) ∨
      (s.mover = .platformReset ∧ t = s.popTurn.platformReset) := by
  unfold step State.turn at h
  split at h
  · rename_i hm
    exact .inl ⟨hm, h⟩
  · rename_i hm
    unfold State.engineTurn at h
    split at h
    · rename_i hb
      exact .inr (.inl ⟨hm, hb, h⟩)
    · rename_i hb
      cases h
      exact .inr (.inr (.inl ⟨hm, by simpa using hb, rfl⟩))
  · rename_i hm
    cases h
    exact .inr (.inr (.inr ⟨hm, rfl⟩))

end Sys2Proof.Machine
end

