-- ==== Sys2Proof/Laws/Window.lean ====
section
/-! SUPPORT. The window as the Host sees it: every target stands at one offset, and a store shows at its own target only. -/

namespace Sys2Proof.Machine

/-! ## Offsets -/

/-- The offset of a target (20_memory.md R50); an unmapped target has none and is put at the window's end. -/
def Target.offset : Target → Nat
  | .id => 0x00
  | .cmd => 0x04
  | .status => 0x08
  | .errinfo => 0x0C
  | .keyLen => 0x10
  | .tpN => 0x14
  | .tpSkLen => 0x18
  | .srcLen => 0x1C
  | .dstLen => 0x20
  | .key w => 0x30 + 4 * w.val
  | .flow p => 0x40 + 4 * p.val
  | .rk r => 0x80 + 4 * r.val
  | .fk j => 0x1000 + 4 * j
  | .sk j => 0x2000 + 4 * j
  | .src q => 0x10000 + 4 * q
  | .dst q => 0x20000 + 4 * q
  | .unmapped => 0x30000

theorem registerAt_offset (w : Nat) (h : registerAt w ≠ .unmapped) : (registerAt w).offset = 4 * w := by
  unfold registerAt at *
  split at h <;> try rfl
  split at h
  · rename_i hh
    rw [if_pos hh]
    simp only [Target.offset, Fin.ofNat]
    omega
  · exact absurd rfl h

/-- A mapped target stands at its own offset. -/
theorem targetAt_offset {p : Params} {off : Nat} (h4 : off % 4 = 0) (h : targetAt p off ≠ .unmapped) :
    (targetAt p off).offset = off := by
  rcases targetAt_cases p off with ⟨_, e⟩ | ⟨j, e, hj, _⟩ | ⟨j, e, hj, _⟩ | ⟨q, e, hj, _⟩ | ⟨j, e, _⟩ | ⟨_, e⟩ <;>
    rw [e] at h ⊢
  · rw [registerAt_offset _ h]
    omega
  all_goals first
    | exact absurd rfl h
    | (simp only [Target.offset]; omega)

/-- No two aligned offsets hold one target. -/
theorem eq_offset {p : Params} {off : Nat} {t : Target} (h4 : off % 4 = 0) (hu : t ≠ .unmapped)
    (h : targetAt p off = t) : off = t.offset := by
  rw [← targetAt_offset h4 (by rw [h]; exact hu), h]

/-- The offset of a host line's bus address. -/
theorem offsetOf_ok (s : State) {off : Nat} (h1 : off % 4 = 0) (h2 : off < 0x30000) :
    s.offsetOf (s.params.base + off) 32 = .ok off := by
  unfold State.offsetOf
  rw [if_neg (by unfold windowBytes; omega),
    if_neg (show ¬ (32 ≠ 32 ∨ (s.params.base + off - s.params.base) % 4 ≠ 0) by omega)]
  simp

/-- STATUS reads exactly, busy or not. -/
theorem busRead_status (s : State) : s.busRead 0x008 = (s.status.toWord, s) := by
  simp [State.busRead, targetAt, registerAt, Target.exactWhileBusy, State.valueAt]

/-- Bit 0 of STATUS is BUSY. -/
theorem toWord_busy (t : Status) : t.toWord.getLsbD 0 = t.busy := by
  obtain ⟨a, b, c, d, e, f⟩ := t
  cases a <;> cases b <;> cases c <;> cases e <;> cases f <;> simp [Status.toWord, flagBit]

/-! ## Words of a buffer -/

theorem readWord_writeWord_same (m : Memory) (q : Nat) (v : Word) : (m.writeWord q v).readWord q = v := by
  have e : ofLanes (fun b => (m.writeWord q v).read (4 * q + b)) = unpack v := by
    simp [ofLanes, Memory.writeWord, flowBytes, byteAt, unpack]
  rw [Memory.readWord, e, pack_unpack]

theorem readWord_writeWord_other (m : Memory) {q q' : Nat} (v : Word) (h : q' ≠ q) :
    (m.writeWord q v).readWord q' = m.readWord q' := by
  have e : ∀ b, b < 4 → (m.writeWord q v).read (4 * q' + b) = m.read (4 * q' + b) := by
    intro b hb
    rw [Memory.writeWord, Memory.read_writeRange, if_neg]
    simp [flowBytes]
    omega
  simp only [Memory.readWord, ofLanes, e 0 (by omega), e 1 (by omega), e 2 (by omega), e 3 (by omega)]

/-- Lane i of a word is its bits 8i+7:8i. -/
theorem lane_unpack (w : Word) {i : Nat} (hi : i < 4) : lane (unpack w) i = w.extractLsb' (8 * i) 8 := by
  interval_cases i <;> rfl

/-- Lane i of word q of a buffer is byte 4q + i. -/
theorem lane_readWord (m : Memory) (q : Nat) {i : Nat} (hi : i < 4) :
    (m.readWord q).extractLsb' (8 * i) 8 = m.read (4 * q + i) := by
  rw [← lane_unpack _ hi, Memory.readWord, unpack_pack]
  interval_cases i <;> rfl

/-! ## Stores -/

theorem storeAt_params (s : State) (t : Target) (v : Word) : (s.storeAt t v).params = s.params := by
  cases t <;> rfl

theorem storeAt_status (s : State) {t : Target} (v : Word) (h : t ≠ .cmd) : (s.storeAt t v).status = s.status := by
  cases t <;> first
    | rfl
    | exact absurd rfl h

/-- No store reaches the engine's state: RK, the latched keys, DST, DST_LEN, the valid bits; STATUS, CMD and ERRINFO are
written only through CMD. -/
theorem storeAt_engine (s : State) (t : Target) (v : Word) :
    (s.storeAt t v).rk = s.rk ∧ (s.storeAt t v).ni = s.ni ∧ (s.storeAt t v).fki = s.fki ∧
      (s.storeAt t v).ski = s.ski ∧ (s.storeAt t v).dst = s.dst ∧ (s.storeAt t v).dstLen = s.dstLen ∧
      (s.storeAt t v).history = s.history ∧ (s.storeAt t v).status.rkValid = s.status.rkValid ∧
      (s.storeAt t v).status.tpValid = s.status.tpValid ∧
      (t ≠ .cmd → (s.storeAt t v).status = s.status ∧ (s.storeAt t v).cmd = s.cmd ∧
        (s.storeAt t v).errinfo = s.errinfo) := by
  cases t <;> simp [State.storeAt]

/-! ## Writing twice -/

section Twice

variable {α : Type}

/-- The first entry at or past key `k` is (k, v). -/
def FirstAt (cs : List (Nat × α)) (k : Nat) (v : α) : Prop := cs.find? (fun c => decide (k ≤ c.1)) = some (k, v)

theorem putCell_firstAt (cs : List (Nat × α)) (k : Nat) (v : α) : FirstAt (putCell cs k v) k v := by
  unfold FirstAt
  induction cs with
  | nil => simp [putCell]
  | cons c rest ih =>
    unfold putCell
    split
    · simp
    split
    · simp
    · rw [List.find?_cons_of_neg (by simp; omega)]
      exact ih

theorem FirstAt.putCell_above {cs : List (Nat × α)} {k k' : Nat} {v v' : α} (hk : k < k') (h : FirstAt cs k v) :
    FirstAt (putCell cs k' v') k v := by
  unfold FirstAt at *
  induction cs with
  | nil => simp at h
  | cons c rest ih =>
    by_cases hc : k ≤ c.1
    · rw [List.find?_cons_of_pos (by simpa using hc)] at h
      cases h
      unfold putCell
      rw [if_neg (by simp; omega), if_neg (by simp; omega), List.find?_cons_of_pos (by simp)]
    · rw [List.find?_cons_of_neg (by simpa using hc)] at h
      unfold putCell
      rw [if_neg (by omega), if_neg (by omega), List.find?_cons_of_neg (by simpa using hc)]
      exact ih h

theorem FirstAt.putCell_eq {cs : List (Nat × α)} {k : Nat} {v : α} (h : FirstAt cs k v) : putCell cs k v = cs := by
  unfold FirstAt at *
  induction cs with
  | nil => simp at h
  | cons c rest ih =>
    by_cases hc : k ≤ c.1
    · rw [List.find?_cons_of_pos (by simpa using hc)] at h
      cases h
      simp [putCell]
    · rw [List.find?_cons_of_neg (by simpa using hc)] at h
      unfold putCell
      rw [if_neg (by omega), if_neg (by omega), ih h]

theorem FirstAt.putRange_above (vs : List α) : ∀ {cs : List (Nat × α)} {k j : Nat} {v : α}, k < j → FirstAt cs k v →
    FirstAt (putRange cs j vs) k v := by
  induction vs with
  | nil => exact fun _ h => h
  | cons w vs ih => exact fun hk h => ih (by omega) (h.putCell_above hk)

theorem putRange_eq_of_firstAt (vs : List α) : ∀ {cs : List (Nat × α)} {k : Nat},
    (∀ i (h : i < vs.length), FirstAt cs (k + i) vs[i]) → putRange cs k vs = cs := by
  induction vs with
  | nil => exact fun _ => rfl
  | cons w vs ih =>
    intro cs k h
    have h0 : FirstAt cs k w := h 0 (by simp)
    rw [putRange, h0.putCell_eq, ih]
    intro i hi
    have := h (i + 1) (by simpa using hi)
    rw [show k + 1 + i = k + (i + 1) by omega]
    simpa using this

theorem putRange_firstAt (vs : List α) : ∀ (cs : List (Nat × α)) (k i : Nat) (h : i < vs.length),
    FirstAt (putRange cs k vs) (k + i) vs[i] := by
  induction vs with
  | nil => intro _ _ i h; simp at h
  | cons w vs ih =>
    intro cs k i hi
    cases i with
    | zero => exact FirstAt.putRange_above vs (by omega) (putCell_firstAt cs k w)
    | succ i =>
      have := ih (putCell cs k w) (k + 1) i (by simpa using hi)
      rw [show k + 1 + i = k + (i + 1) by omega] at this
      exact this

theorem putCell_twice (cs : List (Nat × α)) (k : Nat) (v : α) : putCell (putCell cs k v) k v = putCell cs k v :=
  (putCell_firstAt cs k v).putCell_eq

theorem putRange_twice (cs : List (Nat × α)) (k : Nat) (vs : List α) :
    putRange (putRange cs k vs) k vs = putRange cs k vs := putRange_eq_of_firstAt vs (putRange_firstAt vs cs k)

end Twice

end Sys2Proof.Machine
end

