-- ==== Sys2Proof/Tests/Slice0.lean ====
section
/-! SUPPORT. Tests: the well-formedness checks, decoding of words written out from 30_encoding.md R70 and R73, vectors of
95_test_vectors.md, and for each statement of the obligations a concrete case that meets its hypotheses. -/

namespace Sys2Proof.Tests

open Sys2Proof.Machine

/-! ## Small states -/

/-- The state a command leaves. -/
def after (i : Instr) (s : State) : State :=
  match exec i s with
  | .next t => t
  | .fault _ => s
  | .refused _ => s

/-- The state a step leaves. -/
def stepped (s : State) : State :=
  match step s with
  | .next t => t
  | .fault _ => s
  | .refused _ => s

/-- A core with MAXLEN = 32 and NMAX = 8, right after reset (95_test_vectors.md, introduction). -/
def fresh : State := State.afterReset ⟨0x40000, 32, 8, .bytePosRight⟩ 0

/-- The key KJ staged with KEY_LEN = 16 (95_test_vectors.md, introduction). -/
def keyed : State := { fresh with key := #v[0x6C726F6A#32, 0x3238676E#32, 0x3979356E#32, 0x32367268#32], keyLen := 16#32 }

/-- The schedule of KJ (V-K1). -/
def kjRk : Vector Word 16 :=
  #v[0x6C726F6A#32, 0x3238676E#32, 0x3979356E#32, 0x32367268#32, 0x726F6A6C#32, 0x38676E32#32, 0x79356E39#32, 0x36726832#32,
    0x6F6A6C72#32, 0x676E3238#32, 0x356E3979#32, 0x72683236#32, 0x6A6C726F#32, 0x6E323867#32, 0x6E397935#32, 0x68323672#32]

/-- The schedule of KJ in force. -/
def kj : State := { fresh with rk := kjRk, status := { fresh.status with rkValid := true } }

/-- A message staged in SRC. -/
def withSrc (s : State) (bs : List Byte) : State :=
  { s with src := ⟨cellsFrom 0 bs, 0⟩, srcLen := BitVec.ofNat 32 bs.length }

/-- Two permutation keys staged in FK and SK with TP_N = n. -/
def staged (n : Word) (fk sk : List Word) : State :=
  { fresh with tpN := n, tpSkLen := n, fk := ⟨cellsFrom 0 fk, 2⟩, sk := ⟨cellsFrom 0 sk, 3⟩ }

/-- Two permutation keys latched. -/
def latched (n : Word) (fk sk : List Word) : State :=
  { fresh with
    ni := n
    fki := ⟨cellsFrom 0 fk, 4⟩
    ski := ⟨cellsFrom 0 sk, 5⟩
    status := { fresh.status with tpValid := true } }

/-- The keys of V-T1. -/
def t1 : State := latched 5#32 [4#32, 2#32, 1#32, 5#32, 3#32] [2#32, 5#32, 3#32, 4#32, 1#32]

/-- The keys of V-T2. -/
def t2 : State := latched 3#32 [3#32, 1#32, 2#32] [2#32, 3#32, 1#32]

/-- What a command left in DST[0..DST_LEN-1]. -/
def result (s : State) : List Byte := s.dst.readRange 0 s.dstLen.toNat

def helloworld : List Byte := [0x48, 0x45, 0x4c, 0x4c, 0x4f, 0x57, 0x4f, 0x52, 0x4c, 0x44]

/-! ## Well-formedness -/

theorem test_renc_16_ill_formed : Instr.wf (.renc 16) = false := by decide

theorem test_rdec_16_ill_formed : Instr.wf (.rdec 16) = false := by decide

theorem test_round_15_well_formed : Instr.wf (.renc 15) = true ∧ Instr.wf (.rdec 15) = true := by decide

/-! ## Decoding: words written out as reserved(31:13) NOTRIM(12) RIDX(11:8) OP(7:0) -/

theorem test_decode_plain :
    decode 0b0000000000000000000_0_0000_00000000#32 = .ok .nop ∧
    decode 0b0000000000000000000_0_0000_00000001#32 = .ok .ksched ∧
    decode 0b0000000000000000000_0_0000_00000100#32 = .ok .benc ∧
    decode 0b0000000000000000000_0_0000_00000101#32 = .ok .bdec ∧
    decode 0b0000000000000000000_0_0000_00000110#32 = .ok .menc ∧
    decode 0b0000000000000000000_0_0000_00001000#32 = .ok .tcfg ∧
    decode 0b0000000000000000000_0_0000_00001001#32 = .ok .tenc ∧
    decode 0b0000000000000000000_0_0000_00001011#32 = .ok .trimz ∧
    decode 0b0000000000000000000_0_0000_00001100#32 = .ok .trimp ∧
    decode 0b0000000000000000000_0_0000_00001101#32 = .ok .move := by
  decide

theorem test_decode_round_index :
    decode 0b0000000000000000000_0_0111_00000010#32 = .ok (.renc 7) ∧
    decode 0b0000000000000000000_0_1111_00000010#32 = .ok (.renc 15) ∧
    decode 0b0000000000000000000_0_1000_00000011#32 = .ok (.rdec 8) := by
  decide

theorem test_decode_notrim :
    decode 0b0000000000000000000_0_0000_00000111#32 = .ok (.mdec false) ∧
    decode 0b0000000000000000000_1_0000_00000111#32 = .ok (.mdec true) ∧
    decode 0b0000000000000000000_0_0000_00001010#32 = .ok (.tdec false) ∧
    decode 0b0000000000000000000_1_0000_00001010#32 = .ok (.tdec true) := by
  decide

/-- The illegal words of V-C3. -/
theorem test_decode_illegal :
    decode 0x0000000E#32 = .error .reservedOp ∧ decode 0x000000FF#32 = .error .reservedOp ∧
    decode 0x00000104#32 = .error .ridxUnused ∧ decode 0x00001006#32 = .error .notrimUnused ∧
    decode 0x00002000#32 = .error .reservedBits ∧ decode 0x00000100#32 = .error .ridxUnused ∧
    decode 0x80000001#32 = .error .reservedBits := by
  decide

/-- The table's row words run as the first command after reset (R200, R201). -/
theorem test_placed_word_runs :
    step (State.reset.withFetchWord 32 0x00000702) =
      exec (.renc 7) { State.reset with cmd := 0x702#32, status := { State.reset.status with busy := true } } ∧
    decodeTableWord 32 0x0000100A = some (.tdec true) := by
  exact ⟨rfl, by decide⟩

/-- Command syntax (R76). -/
theorem test_assemble : assemble "RENC 7" = some 0x702#32 ∧ assemble "MDEC.NT" = some 0x1007#32 := by decide

/-! ## Key schedule -/

theorem test_ksched_V_K1 : (after .ksched keyed).rk = kjRk ∧ (after .ksched keyed).status.toWord = 0x00010002#32 := by
  decide

/-- V-K4, the two other readings of the rotation: RK4 and RK12. -/
theorem test_ksched_V_K4 :
    (after .ksched { keyed with params := ⟨0, 32, 8, .bytePosLeft⟩ }).rk[4] = 0x6A6C726F#32 ∧
    (after .ksched { keyed with params := ⟨0, 32, 8, .bytePosLeft⟩ }).rk[12] = 0x726F6A6C#32 ∧
    (after .ksched { keyed with params := ⟨0, 32, 8, .bitPerByteRight⟩ }).rk[4] = 0x3639B735#32 ∧
    (after .ksched { keyed with params := ⟨0, 32, 8, .bitPerByteRight⟩ }).rk[15] = 0x46C64E0D#32 := by
  decide

/-! ## Rounds -/

/-- The state of V-R1: RK[7] = 0x44332211. -/
def r1 : State :=
  { kj with
    rk := kjRk.set 7 0x44332211#32
    flow := #v[0x04030201#32, 0x40302010#32, 0xDDCCBBAA#32, 0x00FF00FF#32] }

theorem test_renc_V_R1 : (after (.renc 7) r1).flow = #v[0x00000000#32, 0x9DFC9BBA#32, 0x40CF20EF#32, 0x04030201#32] := by
  decide

theorem test_rdec_V_R3 : (after (.rdec 7) r1).flow = #v[0x00FF00FF#32, 0x40CF20EF#32, 0x04FC02FE#32, 0x99009944#32] := by
  decide

theorem test_benc_V_B1 : (after .benc kj).flow = #v[0x6C2E2160#32, 0x66253C7C#32, 0x787A322E#32, 0x425D1A00#32] := by
  decide

/-- V-B4, as FLOW words. -/
theorem test_bdec_V_B4 :
    (after .bdec { kj with flow := #v[0x03020100#32, 0x07060504#32, 0x0B0A0908#32, 0x0F0E0D0C#32] }).flow =
      #v[0x4D53170C#32, 0x227F376C#32, 0x2C702E74#32, 0x3E232C2A#32] := by
  decide

/-- V-B7: no schedule. -/
theorem test_renc_V_B7 : (after (.renc 0) fresh).status.toWord = 0x00000406#32 := by decide

/-! ## Messages -/

theorem test_menc_V_M1 : result (after .menc (withSrc kj [0x41, 0x42, 0x43])) =
    [0x21, 0x63, 0x6d, 0x6c, 0x3d, 0x7e, 0x66, 0x66, 0x6f, 0x70, 0x39, 0x78, 0x41, 0x58, 0x1e, 0x42] := by
  decide

/-- V-M5: two blocks, the second of one byte. -/
theorem test_menc_V_M5 :
    result (after .menc (withSrc kj [1, 2, 3, 4, 5, 6, 7, 8, 9, 10, 11, 12, 13, 14, 15, 16, 17])) =
      [0x64, 0x25, 0x2a, 0x60, 0x74, 0x34, 0x2d, 0x6e, 0x22, 0x3e, 0x76, 0x6c, 0x01, 0x18, 0x5e, 0x46,
       0x71, 0x21, 0x2e, 0x6c, 0x6d, 0x3c, 0x25, 0x66, 0x3f, 0x32, 0x7a, 0x78, 0x11, 0x1a, 0x5d, 0x42] := by
  decide

/-- V-M6 ciphertext: the genuine trailing zero is lost. -/
theorem test_mdec_V_M6 :
    result (after (.mdec false) (withSrc kj
      [0x21, 0x21, 0x6c, 0x6c, 0x3d, 0x3c, 0x67, 0x66, 0x6f, 0x32, 0x38, 0x78, 0x41, 0x1a, 0x1f, 0x42])) =
      [0x41, 0x00, 0x42] := by
  decide

/-- V-M2: without the trim. -/
theorem test_mdec_nt_V_M2 :
    result (after (.mdec true) (withSrc kj
      [0x21, 0x63, 0x6d, 0x6c, 0x3d, 0x7e, 0x66, 0x66, 0x6f, 0x70, 0x39, 0x78, 0x41, 0x58, 0x1e, 0x42])) =
      [0x41, 0x42, 0x43, 0, 0, 0, 0, 0, 0, 0, 0, 0, 0, 0, 0, 0] := by
  decide

theorem test_trimz_V_Z3 :
    result (after .trimz (withSrc fresh [0x41, 0, 0x42, 0, 0, 0, 0, 0, 0, 0, 0, 0, 0, 0, 0, 0])) = [0x41, 0, 0x42] := by
  decide

/-- V-Z6: only the final block is trimmed, and all of it. -/
theorem test_trimz_V_Z6 :
    (after .trimz (withSrc fresh (List.replicate 16 9#8 ++ List.replicate 16 0#8))).dstLen = 16#32 := by
  decide

/-! ## Transposition -/

/-- V-T7: a duplicate in firstKey at index 2. -/
theorem test_tcfg_V_T7_first :
    (after .tcfg (staged 5#32 [4#32, 2#32, 2#32, 5#32, 3#32] [2#32, 5#32, 3#32, 4#32, 1#32])).errinfo = 0x00000002#32 ∧
    (after .tcfg (staged 5#32 [4#32, 2#32, 1#32, 5#32, 3#32] [2#32, 5#32, 3#32, 4#32, 1#32])).status.toWord =
      0x00020002#32 := by
  decide

/-- V-T7: secondKey out of range at index 1, and the length errors. -/
theorem test_tcfg_V_T7_second :
    (after .tcfg (staged 3#32 [1#32, 2#32, 3#32] [1#32, 4#32, 2#32])).errinfo = 0x00010001#32 ∧
    (after .tcfg (staged 9#32 [] [])).errinfo = 0x00020000#32 ∧
    (after .tcfg { staged 3#32 [] [] with tpSkLen := 2#32 }).errinfo = 0x00030000#32 ∧
    (after .tcfg (staged 0#32 [] [])).status.toWord = 0x00000606#32 := by
  decide

theorem test_tenc_V_T1 : result (after .tenc (withSrc t1 [0x41, 0x42, 0x43, 0x44, 0x45])) =
    [0x44, 0x43, 0x45, 0x41, 0x42] := by
  decide

theorem test_tenc_V_T2 : result (after .tenc (withSrc t2 helloworld)) =
    [0x4f, 0x7c, 0x7c, 0x44, 0x45, 0x4c, 0x48, 0x4f, 0x57, 0x4c, 0x52, 0x4c] := by
  decide

/-- V-T2: the pads go. -/
theorem test_tdec_V_T2 : result (after (.tdec false) (withSrc t2
    [0x4f, 0x7c, 0x7c, 0x44, 0x45, 0x4c, 0x48, 0x4f, 0x57, 0x4c, 0x52, 0x4c])) = helloworld := by
  decide

/-- V-T13: a string that is no TENC output. -/
theorem test_tdec_nt_V_T13 :
    result (after (.tdec true) (withSrc t1 [0x41, 0x42, 0x43, 0x44, 0x45, 0x46, 0x47, 0x48, 0x49, 0x4a])) =
      [0x4a, 0x44, 0x43, 0x45, 0x49, 0x41, 0x47, 0x46, 0x42, 0x48] := by
  decide

/-- V-P4. -/
theorem test_trimp_V_P4 :
    result (after .trimp (withSrc fresh [0x7c, 0x7c, 0x7c, 0x41, 0x42, 0x7c, 0x43, 0x7c, 0x7c])) =
      [0x41, 0x42, 0x7c, 0x43] := by
  decide

/-- V-P1: nothing but pads. -/
theorem test_trimp_V_P1 : (after .trimp (withSrc fresh [0x7c, 0x7c, 0x7c, 0x7c])).dstLen = 0#32 := by decide

/-- V-T12: M = 35 does not fit 32. -/
theorem test_tenc_V_T12 : (after .tenc { t1 with srcLen := 31#32 }).errinfo = 0x23#32 ∧
    (after (.tdec false) { t1 with srcLen := 7#32 }).status.toWord = 0x00020306#32 := by
  decide

/-! ## Buffer, reset, bus -/

/-- V-C1, from STATUS = 0x00010206 and ERRINFO = 0x11, through the issue. -/
theorem test_nop_V_C1 :
    let s := { kj with status := { kj.status with done := true, err := true, errcode := 2#4 }, errinfo := 0x11#32 }
    (stepped (s.issueNow 0x00000000#32)).status.toWord = 0x00010002#32 ∧
      (stepped (s.issueNow 0x00000000#32)).errinfo = 0#32 := by
  decide

/-- V-C2. -/
theorem test_move_V_C2 :
    let t := after .move { fresh with dst := ⟨cellsFrom 0 [0x44#8, 0x43, 0x45, 0x41, 0x42], 1⟩, dstLen := 5#32 }
    t.src.readRange 0 5 = [0x44, 0x43, 0x45, 0x41, 0x42] ∧ t.srcLen = 5#32 := by
  decide

/-- V-X1. -/
theorem test_reset_V_X1 :
    (State.reset.busRead 0x000).1 = 0x434E5901#32 ∧ (State.reset.busRead 0x008).1 = 0#32 ∧
      (State.reset.busRead 0x01C).1 = 0#32 ∧ (State.reset.busRead 0x024).1 = 0#32 ∧ (State.reset.busRead 0x050).1 = 0#32 := by
  decide

/-- V-X2. -/
theorem test_read_only_V_X2 :
    fresh.busWrite 0x008 0xFFFFFFFF#32 = fresh ∧ fresh.busWrite 0x020 1#32 = fresh ∧ fresh.busWrite 0x20000 1#32 = fresh := by
  decide

/-- P1's first line: the key as four words. -/
theorem test_wrbytes_P1 :
    wrBytes 0x030 [0x6a, 0x6f, 0x72, 0x6c, 0x6e, 0x67, 0x38, 0x32, 0x6e, 0x35, 0x79, 0x39, 0x68, 0x72, 0x36, 0x32] =
      [.wr 0x030 0x6C726F6A#32, .wr 0x034 0x3238676E#32, .wr 0x038 0x3979356E#32, .wr 0x03C 0x32367268#32] := by
  decide

/-! ## Witnesses: concrete cases that meet the hypotheses of the statements, one theorem a statement -/

/-- KJ's schedule with a command pending. -/
def pending (s : State) (c : Word) : State := s.issue c

/-- Both kinds of key material in force. -/
def ready : State := { t2 with rk := kjRk, status := { t2.status with rkValid := true } }

/-- The ciphertext of V-M1. -/
def cipherM1 : List Byte :=
  [0x21, 0x63, 0x6d, 0x6c, 0x3d, 0x7e, 0x66, 0x66, 0x6f, 0x70, 0x39, 0x78, 0x41, 0x58, 0x1e, 0x42]

/-- The ciphertext of V-T2. -/
def cipherT2 : List Byte := [0x4f, 0x7c, 0x7c, 0x44, 0x45, 0x4c, 0x48, 0x4f, 0x57, 0x4c, 0x52, 0x4c]

theorem permutation_of {n : Nat} {f : Nat → Word} (h1 : ∀ j, j < n → 1 ≤ (f j).toNat ∧ (f j).toNat ≤ n)
    (h2 : ∀ j, j < n → ∀ i, i < j → f i ≠ f j) : IsPermutationKey n f :=
  ⟨h1, fun i j hij hj => h2 j hj i hij⟩

theorem latched_t2 : t2.KeysLatched :=
  ⟨by decide, permutation_of (by decide) (by decide), permutation_of (by decide) (by decide)⟩

theorem latched_ready : ready.KeysLatched := latched_t2

theorem witness_DecodeUndoesEncode :
    (Instr.renc 0).WellFormed ∧ (Instr.rdec 15).WellFormed ∧ (Instr.mdec true).WellFormed ∧ Instr.move.WellFormed := by
  decide

theorem witness_EncodeUndoesDecode : decode 0x00000F02#32 = .ok (.renc 15) ∧ decode 0x0000100A#32 = .ok (.tdec true) := by
  decide

theorem witness_LegalWordsDecodeAndOthersRaiseIllegalCommand :
    (pending kj 0x0000000E#32).cmd = 0x0000000E#32 ∧ ¬ ∃ i, decode 0x0000000E#32 = .ok i := by
  refine ⟨rfl, ?_⟩
  rintro ⟨i, h⟩
  have : decode 0x0000000E#32 = .error .reservedOp := by decide
  rw [this] at h
  cases h

theorem witness_CmdWriteIssuesOrIsLost : fresh.status.busy = false ∧ (pending kj 4#32).status.busy = true := by decide

theorem witness_EngineStepRunsDecodedCommand :
    (pending kj 4#32).sched = [] ∧ (pending kj 4#32).status.busy = true ∧ decode (pending kj 4#32).cmd = .ok .benc ∧
      (kj.issueNow 4#32).sched = .engine :: [] ∧ (kj.issueNow 4#32).status.busy = true ∧
      decode (kj.issueNow 4#32).cmd = .ok .benc := by
  decide

theorem witness_PlacedCommandRunsNext : (Instr.renc 15).WellFormed := by decide

theorem witness_EngineCompletesExactlyWhenBusy :
    ((pending kj 0xFF#32).status.busy = true ∧ (pending kj 0xFF#32).sched = []) ∧
      ({ kj with sched := [.engine, .host] } : State).status.busy = false := by
  decide

theorem witness_KschedDerivesTheSchedule : keyed.keyLen = 16#32 := by decide

theorem witness_RencAndRdecDoOneRound : kj.status.rkValid = true ∧ 0 < 16 ∧ 15 < 16 := by decide

theorem witness_BencAndBdecDoSixteenRounds : kj.status.rkValid = true := by decide

theorem witness_MencEncryptsEveryBlock :
    kj.status.rkValid = true ∧ (withSrc kj []).srcLen.toNat ≤ kj.params.maxlen ∧
      (withSrc kj (List.replicate 32 1#8)).srcLen.toNat ≤ kj.params.maxlen ∧
      1 < ceilDiv (withSrc kj (List.replicate 32 1#8)).srcLen.toNat 16 := by
  decide

theorem witness_MdecDecryptsEveryBlock :
    (withSrc kj cipherM1).status.rkValid = true ∧ (withSrc kj cipherM1).srcLen.toNat ≤ 32 ∧
      (withSrc kj cipherM1).srcLen.toNat % 16 = 0 ∧ kj.params.maxlen = 32 := by
  decide

theorem witness_TrimzTrimsTheFinalBlock :
    (withSrc fresh (List.replicate 32 0#8)).srcLen.toNat ≤ fresh.params.maxlen ∧
      (withSrc fresh (List.replicate 32 0#8)).srcLen.toNat % 16 = 0 := by
  decide

/-- TP_N at both ends of its range: 1 and NMAX = 8. -/
theorem witness_TcfgLatchesPermutations :
    let s := staged 1#32 [1#32] [1#32]
    let u := staged 8#32 [8#32, 7#32, 6#32, 5#32, 4#32, 3#32, 2#32, 1#32] [1#32, 2#32, 3#32, 4#32, 5#32, 6#32, 7#32, 8#32]
    (1 ≤ s.tpN.toNat ∧ s.tpN.toNat ≤ s.params.nmax ∧ s.tpSkLen = s.tpN ∧ IsPermutationKey s.tpN.toNat s.fk.read ∧
      IsPermutationKey s.tpN.toNat s.sk.read) ∧
    (u.tpN.toNat = u.params.nmax ∧ u.tpSkLen = u.tpN ∧ IsPermutationKey u.tpN.toNat u.fk.read ∧
      IsPermutationKey u.tpN.toNat u.sk.read) := by
  refine ⟨⟨by decide, by decide, by decide, permutation_of (by decide) (by decide),
    permutation_of (by decide) (by decide)⟩, by decide, by decide, permutation_of (by decide) (by decide),
    permutation_of (by decide) (by decide)⟩

theorem witness_TencTransposesTheText :
    (withSrc t2 helloworld).status.tpValid = true ∧ (withSrc t2 helloworld).KeysLatched ∧
      (withSrc t2 helloworld).srcLen.toNat ≤ t2.params.maxlen ∧
      ceilDiv (withSrc t2 helloworld).srcLen.toNat t2.ni.toNat * t2.ni.toNat ≤ t2.params.maxlen :=
  ⟨by decide, latched_t2, by decide, by decide⟩

theorem witness_TdecRestoresTheText :
    (withSrc t2 cipherT2).status.tpValid = true ∧ (withSrc t2 cipherT2).KeysLatched ∧
      (withSrc t2 cipherT2).srcLen.toNat ≤ t2.params.maxlen ∧ (withSrc t2 cipherT2).srcLen.toNat % t2.ni.toNat = 0 :=
  ⟨by decide, latched_t2, by decide, by decide⟩

theorem witness_TrimpStripsThePads : (withSrc fresh (List.replicate 32 pad)).srcLen.toNat ≤ fresh.params.maxlen := by decide

theorem witness_MissingKeyMaterialIsReportedFirst : fresh.status.rkValid = false ∧ fresh.status.tpValid = false := by decide

theorem witness_KschedRejectsOtherKeyLengths : ({ keyed with keyLen := 17#32 } : State).keyLen ≠ 16#32 := by decide

/-- One state a clause; TP_N at 0 and at NMAX + 1, an offence at the first and at the last index. -/
theorem witness_TcfgReportsTheFirstOffence :
    (staged 0#32 [] []).tpN.toNat = 0 ∧ (staged 9#32 [] []).params.nmax < (staged 9#32 [] []).tpN.toNat ∧
    ({ staged 3#32 [] [] with tpSkLen := 2#32 } : State).tpSkLen ≠ 3#32 ∧
    FirstOffendingAt 3 (staged 3#32 [0#32, 2#32, 3#32] []).fk.read 0 ∧
    IsPermutationKey 3 (staged 3#32 [1#32, 2#32, 3#32] [1#32, 3#32, 3#32]).fk.read ∧
    FirstOffendingAt 3 (staged 3#32 [1#32, 2#32, 3#32] [1#32, 3#32, 3#32]).sk.read 2 := by
  refine ⟨by decide, by decide, by decide, ⟨by decide, .inl (by decide), fun i hi => absurd hi (Nat.not_lt_zero i)⟩,
    permutation_of (by decide) (by decide), by decide, .inr (.inr ⟨1, by decide, by decide⟩), ?_⟩
  have h : ∀ i, i < 2 → (1 ≤ ((staged 3#32 [1#32, 2#32, 3#32] [1#32, 3#32, 3#32]).sk.read i).toNat ∧
      ((staged 3#32 [1#32, 2#32, 3#32] [1#32, 3#32, 3#32]).sk.read i).toNat ≤ 3) ∧
      ∀ j, j < i → (staged 3#32 [1#32, 2#32, 3#32] [1#32, 3#32, 3#32]).sk.read j ≠
        (staged 3#32 [1#32, 2#32, 3#32] [1#32, 3#32, 3#32]).sk.read i := by
    decide
  rintro i hi (h1 | h1 | ⟨j, hj, e⟩)
  · exact absurd h1 (by have := (h i hi).1; omega)
  · exact absurd h1 (by have := (h i hi).1; omega)
  · exact (h i hi).2 j hj e

theorem witness_OverlongMessagesRaiseLengthOverflow :
    ({ ready with srcLen := 33#32 } : State).params.maxlen < ({ ready with srcLen := 33#32 } : State).srcLen.toNat ∧
      ready.status.rkValid = true ∧ ready.status.tpValid = true := by
  decide

/-- 31 bytes fit, and are neither whole blocks nor whole rows of 3. -/
theorem witness_RaggedMessagesRaiseTheirLengthError :
    let s : State := { ready with srcLen := 31#32 }
    s.srcLen.toNat ≤ s.params.maxlen ∧ s.srcLen.toNat % 16 ≠ 0 ∧ s.status.rkValid = true ∧
      s.srcLen.toNat % s.ni.toNat ≠ 0 ∧ s.status.tpValid = true := by
  decide

theorem witness_TencPaddingOverflowRaisesLengthOverflow :
    let s : State := { t1 with srcLen := 32#32 }
    s.status.tpValid = true ∧ s.srcLen.toNat ≤ s.params.maxlen ∧
      s.params.maxlen < ceilDiv s.srcLen.toNat s.ni.toNat * s.ni.toNat := by
  decide

theorem witness_FailingCommandsWriteNoResult :
    (pending fresh 6#32).status.err = false ∧
      (pending fresh 6#32).completeStep = .next (after .menc (pending fresh 6#32)) ∧
      (after .menc (pending fresh 6#32)).status.err = true :=
  ⟨by decide, rfl, by decide⟩

theorem witness_RoundCommandsFrame :
    exec (.renc 15) kj = .next (after (.renc 15) kj) ∧ exec .bdec kj = .next (after .bdec kj) := ⟨rfl, rfl⟩

theorem witness_ResultCommandsFrame :
    exec .menc (withSrc kj helloworld) = .next (after .menc (withSrc kj helloworld)) ∧
      kj.status.err = false ∧ exec .menc fresh = .next (after .menc fresh) ∧ (after .menc fresh).status.err = true :=
  ⟨rfl, by decide, rfl, by decide⟩

theorem witness_KeyCommandsFrame :
    exec .ksched keyed = .next (after .ksched keyed) ∧
      exec .tcfg (staged 1#32 [1#32] [1#32]) = .next (after .tcfg (staged 1#32 [1#32] [1#32])) := ⟨rfl, rfl⟩

theorem witness_BufferCommandsFrame :
    exec .nop fresh = .next (after .nop fresh) ∧
      exec .move { fresh with dstLen := 0#32 } = .next (after .move { fresh with dstLen := 0#32 }) := ⟨rfl, rfl⟩

/-- A state that meets the invariant with keys latched, a command pending and a step that completes it. -/
theorem witness_EveryStepKeepsTheInvariant :
    (pending t2 0#32).Inv ∧ step (pending t2 0#32) = .next (stepped (pending t2 0#32)) where
  left :=
    { params := by decide
      wf := by decide
      srcFits := by decide
      tablesFit := by decide
      dstLenFits := by decide
      dstExtent := by decide
      busyClean := by decide
      errDone := by decide
      noErr := by decide
      codes := by decide
      keys := fun _ => ⟨by decide, latched_t2.2⟩ }
  right := rfl

/-- A KSCHED that sets RK_VALID, a TCFG that sets TP_VALID, and a step that keeps both set. -/
theorem witness_ValidBitsAreSetByTheirCommandAndClearedByReset :
    let a := pending keyed 1#32
    let b := pending (staged 1#32 [1#32] [1#32]) 8#32
    (a.mover ≠ .platformReset ∧ step a = .next (stepped a) ∧ a.status.rkValid = false ∧
      (stepped a).status.rkValid = true) ∧
    (b.mover ≠ .platformReset ∧ step b = .next (stepped b) ∧ b.status.tpValid = false ∧
      (stepped b).status.tpValid = true) ∧
    (ready.mover ≠ .platformReset ∧ step ready = .next (stepped ready) ∧ ready.status.rkValid = true ∧
      ready.status.tpValid = true) :=
  ⟨⟨by decide, rfl, by decide, by decide⟩, ⟨by decide, rfl, by decide, by decide⟩, by decide, rfl, by decide, by decide⟩

theorem witness_KeyMaterialChangesOnlyWhenLatched :
    let a := pending keyed 1#32
    let b := pending (staged 1#32 [1#32] [1#32]) 8#32
    (a.mover ≠ .platformReset ∧ step a = .next (stepped a) ∧ (stepped a).rk ≠ a.rk) ∧
    (b.mover ≠ .platformReset ∧ step b = .next (stepped b) ∧ (stepped b).ni ≠ b.ni) :=
  ⟨⟨by decide, rfl, by decide⟩, by decide, rfl, by decide⟩

theorem witness_HostAndEngineWriteTheirOwnState :
    let h : State := { fresh with hostProg := doCommand .nop }
    let e := pending kj 4#32
    (step h = .next (stepped h) ∧ h.mover = .host ∧ (stepped h).status.busy = true) ∧
    (step e = .next (stepped e) ∧ e.mover = .engine ∧ e.cmd ≠ 0x0000000D#32) :=
  ⟨⟨rfl, by decide, by decide⟩, rfl, by decide, by decide⟩

theorem witness_HistoryRecordsEveryCompletion :
    (step (pending kj 0xFF#32) = .next (stepped (pending kj 0xFF#32)) ∧ (pending kj 0xFF#32).mover = .engine ∧
      (pending kj 0xFF#32).status.busy = true ∧ (stepped (pending kj 0xFF#32)).history = [7#4]) ∧
    (step fresh = .next (stepped fresh) ∧ fresh.mover = .host) :=
  ⟨⟨rfl, by decide, by decide, by decide⟩, rfl, by decide⟩

theorem witness_BusyWindow : (pending kj 4#32).status.busy = true ∧ 0x00C % 4 = 0 ∧ 0x2FFFC % 4 = 0 := by decide

/-- Both ends of each unmapped and read-only range, with NMAX = 8 and MAXLEN = 32. -/
theorem witness_UnmappedAndReadOnlyOffsets :
    fresh.status.busy = false ∧
    (∀ off ∈ [0x24, 0x2C, 0x50, 0x7C, 0xC0, 0xFFC, 0x1020, 0x1FFC, 0x2020, 0x2FFC, 0x3000, 0xFFFC, 0x10020, 0x1FFFC,
        0x20020, 0x2FFFC],
      off % 4 = 0 ∧ off < 0x30000 ∧ targetAt fresh.params off = .unmapped) ∧
    (∀ off ∈ [0x00, 0x08, 0x0C, 0x20, 0x80, 0xBC, 0x20000, 0x2001C],
      off % 4 = 0 ∧ off < 0x30000 ∧ targetAt fresh.params off ≠ .unmapped ∧ fresh.storeAt (targetAt fresh.params off) 1#32 = fresh) := by
  decide

theorem witness_TransactionsAreIdempotent :
    fresh.status.busy = false ∧ (pending kj 4#32).status.busy = true ∧ 0x008 < 0x0C ∧ 0x10000 ≠ 0x004 ∧
      0x10000 % 4 = 0 ∧ 0x10000 < 0x30000 := by
  decide

/-- Both ends of each range that is read and write. -/
theorem witness_WindowReadAfterWrite :
    fresh.status.busy = false ∧
    ∀ off ∈ [0x10, 0x1C, 0x30, 0x4C, 0x1000, 0x101C, 0x2000, 0x201C, 0x10000, 0x1001C],
      off % 4 = 0 ∧ off < 0x30000 ∧ ((fresh.busWrite off 0x89ABCDEF#32).busRead off).1 = 0x89ABCDEF#32 := by
  decide

theorem witness_BytesStandInLittleEndianLanes :
    fresh.status.busy = false ∧ 3 < 4 ∧ 4 * 7 < fresh.params.maxlen ∧ 4 * 7 < 0x10000 ∧
      (fresh.busWrite (0x30 + 4 * 3) 0x89ABCDEF#32).keyByte 15 = 0x89#8 ∧
      (fresh.busWrite (0x10000 + 4 * 7) 0x89ABCDEF#32).src.read 28 = 0xEF#8 := by
  decide

/-- A half-word read at BASE, a misaligned write at the window's last byte, and the two addresses just outside. -/
theorem witness_UnsupportedTransactionsAreRefused :
    ({ fresh with hostProg := [.raw (.read 0x40000 16)] } : State).mover = .host ∧
    ({ fresh with hostProg := [.raw (.write 0x6FFFF 32 0#32)] } : State).mover = .host ∧
    fresh.params.base = 0x40000 ∧ (0x6FFFF - 0x40000) % 4 ≠ 0 ∧ 0x3FFFF < 0x40000 ∧
    step { fresh with hostProg := [.raw (.read 0x70000 32)] } = .refused .outsideWindow :=
  ⟨by decide, by decide, by decide, by decide, by decide, rfl⟩

theorem witness_DoRunsTheCommand :
    let s : State := { keyed with hostProg := doCommand .ksched ++ [.rd 0x008] }
    Instr.ksched.WellFormed ∧ s.status.busy = false ∧ s.sched = [] ∧
      s.hostProg = [.wr 0x004 (encode .ksched), .wait] ++ [.rd 0x008] := by
  decide

/-- The four kinds of line, a poll that ends and one that goes on, and a check that fails. -/
theorem witness_HostLinesDoTheirTransaction :
    (∀ line ∈ [HostOp.wr 0x004 1#32, .rd 0x2FFFC, .wait, .check 0x000 0x434E5901#32],
      ({ fresh with hostProg := [line] } : State).mover = .host) ∧
    ({ pending kj 4#32 with hostProg := [.wait], sched := [.host] } : State).mover = .host ∧
    step { fresh with hostProg := [.check 0x000 0#32] } = .fault .assertFailed :=
  ⟨by decide, by decide, rfl⟩

theorem witness_ResetGivesTheResetValues :
    ({ pending kj 4#32 with sched := [.platformReset, .host] } : State).sched = .platformReset :: [.host] := by
  decide

theorem witness_DecryptionUndoesEncryption :
    r1.status.rkValid = true ∧ exec .benc r1 = .next (after .benc r1) ∧
      exec .bdec (after .benc r1) = .next (after .bdec (after .benc r1)) := ⟨by decide, rfl, rfl⟩

/-- Two schedules and two blocks that agree in lane 3 and nowhere else. -/
theorem witness_LanesDoNotMix :
    let rk := fun _ : Nat => (⟨1#8, 2#8, 3#8, 9#8⟩ : Flow)
    let rk' := fun _ : Nat => (⟨5#8, 6#8, 7#8, 9#8⟩ : Flow)
    let b := partition fun k => BitVec.ofNat 8 (k + 1)
    let b' := partition fun k => if k % 4 = 3 then BitVec.ofNat 8 (k + 1) else 0#8
    (∀ r, r < 16 → lane (rk r) 3 = lane (rk' r) 3) ∧
      (lane b.f1 3 = lane b'.f1 3 ∧ lane b.f2 3 = lane b'.f2 3 ∧ lane b.f3 3 = lane b'.f3 3 ∧
        lane b.f4 3 = lane b'.f4 3) ∧ b ≠ b' := by
  decide

theorem witness_BlockCipherLengths :
    (withSrc kj helloworld).params.Legal ∧ kj.status.err = false ∧
      exec .menc (withSrc kj helloworld) = .next (after .menc (withSrc kj helloworld)) ∧
      (after .menc (withSrc kj helloworld)).status.err = false ∧
      exec (.mdec false) (withSrc kj cipherM1) = .next (after (.mdec false) (withSrc kj cipherM1)) ∧
      (after (.mdec false) (withSrc kj cipherM1)).status.err = false ∧ 0 < (withSrc kj cipherM1).srcLen.toNat ∧
      (after (.mdec true) (withSrc kj cipherM1)).status.err = false :=
  ⟨by decide, by decide, rfl, by decide, rfl, by decide, by decide, by decide⟩

/-- A message that ends in a nonzero byte, encrypted, moved and decrypted. -/
theorem witness_EncryptedMessageIsRecovered :
    let s := withSrc kj helloworld
    let t := after .menc s
    let u := after .move t
    s.params.Legal ∧ s.status.rkValid = true ∧ s.srcLen.toNat ≤ s.params.maxlen ∧ exec .menc s = .next t ∧
      exec .move t = .next u ∧ exec (.mdec false) u = .next (after (.mdec false) u) ∧
      s.src.read (s.srcLen.toNat - 1) ≠ 0#8 :=
  ⟨by decide, by decide, by decide, rfl, rfl, rfl, by decide⟩

/-- A text without pads at its ends, encrypted, moved and decrypted. -/
theorem witness_TransposedTextIsRecovered :
    let s := withSrc t2 helloworld
    let t := after .tenc s
    let u := after .move t
    (s.params.Legal ∧ s.status.tpValid = true ∧ s.KeysLatched ∧ s.srcLen.toNat ≤ s.params.maxlen ∧
      ceilDiv s.srcLen.toNat s.ni.toNat * s.ni.toNat ≤ s.params.maxlen) ∧
    (exec .tenc s = .next t ∧ exec .move t = .next u ∧ exec (.tdec false) u = .next (after (.tdec false) u)) ∧
    s.src.read 0 ≠ pad ∧ s.src.read (s.srcLen.toNat - 1) ≠ pad :=
  ⟨⟨by decide, by decide, latched_t2, by decide, by decide⟩, ⟨rfl, rfl, rfl⟩, by decide, by decide⟩

theorem witness_TranspositionLengths :
    (withSrc t2 helloworld).params.Legal ∧ t2.status.err = false ∧
      (after .tenc (withSrc t2 helloworld)).status.err = false ∧ (withSrc t2 cipherT2).KeysLatched ∧
      (after (.tdec true) (withSrc t2 cipherT2)).status.err = false ∧
      (after (.tdec false) (withSrc t2 cipherT2)).status.err = false :=
  ⟨by decide, by decide, by decide, latched_t2, by decide, by decide⟩

theorem witness_TranspositionOnlyMovesCharacters :
    (withSrc t2 helloworld).params.Legal ∧ (withSrc t2 helloworld).KeysLatched ∧ t2.status.err = false ∧
      exec .tenc (withSrc t2 helloworld) = .next (after .tenc (withSrc t2 helloworld)) ∧
      (after .tenc (withSrc t2 helloworld)).status.err = false ∧
      (after (.tdec true) (withSrc t2 cipherT2)).status.err = false :=
  ⟨by decide, latched_t2, by decide, rfl, by decide, by decide⟩

theorem witness_TrimCommandsFinishTheDecryptions :
    let s := withSrc kj cipherM1
    let t := after (.mdec true) s
    let u := after .move t
    let s' := withSrc t2 cipherT2
    let t' := after (.tdec true) s'
    let u' := after .move t'
    (s.params.Legal ∧ s.status.err = false ∧ (after (.mdec false) s).status.err = false ∧
      exec (.mdec false) s = .next (after (.mdec false) s) ∧ exec (.mdec true) s = .next t ∧ exec .move t = .next u ∧
      exec .trimz u = .next (after .trimz u)) ∧
    (s'.KeysLatched ∧ (after (.tdec false) s').status.err = false ∧ exec (.tdec true) s' = .next t' ∧
      exec .move t' = .next u' ∧ exec .trimp u' = .next (after .trimp u')) :=
  ⟨⟨by decide, by decide, by decide, rfl, rfl, rfl, rfl⟩, latched_t2, by decide, rfl, rfl, rfl⟩

end Sys2Proof.Tests
end

section
/-! PROOFS. The invariant of the core: reset meets it (O31), and every step of every agent keeps it (O32). One lemma per
named update of State says that the update keeps `State.Inv`; a step is such updates. -/

namespace Sys2Proof.Machine

/-! ## Where the entries of a listing stand -/

theorem putCell_below {α : Type} {cs : List (Nat × α)} {k n : Nat} (v : α) (h : ∀ c ∈ cs, c.1 < n) (hk : k < n) :
    ∀ c ∈ putCell cs k v, c.1 < n := by
  intro c hc
  rcases mem_putCell hc with rfl | hc
  · exact hk
  · exact h c hc

theorem putRange_below {α : Type} {cs : List (Nat × α)} {k n : Nat} {vs : List α} (h : ∀ c ∈ cs, c.1 < n)
    (hk : k + vs.length ≤ n) : ∀ c ∈ putRange cs k vs, c.1 < n := by
  intro c hc
  rcases mem_putRange hc with hc | hc
  · omega
  · exact h c hc

/-! ## The targets of the window lie inside their tables and buffers -/

/-- An entry of a table or a word of a buffer lies below the capacity (R55). -/
def Target.Fits (p : Params) : Target → Prop
  | .fk j => j < p.nmax
  | .sk j => j < p.nmax
  | .src q => 4 * q < p.maxlen
  | .dst q => 4 * q < p.maxlen
  | _ => True

theorem registerAt_fits (p : Params) (w : Nat) : (registerAt w).Fits p := by
  obtain ⟨hfk, hsk, hsrc, hdst⟩ := registerAt_cases w
  cases h : registerAt w with
  | fk j => exact absurd h (hfk j)
  | sk j => exact absurd h (hsk j)
  | src q => exact absurd h (hsrc q)
  | dst q => exact absurd h (hdst q)
  | _ => trivial

theorem targetAt_fits (p : Params) (off : Nat) : (targetAt p off).Fits p := by
  rcases targetAt_cases p off with ⟨_, e⟩ | ⟨j, e, hj, _⟩ | ⟨j, e, hj, _⟩ | ⟨q, e, hq, _⟩ | ⟨q, e, hq, _⟩ | ⟨_, e⟩ <;> rw [e]
  · exact registerAt_fits p _
  · exact hj
  · exact hj
  · exact hq
  · exact hq
  · trivial

/-! ## Results fit into DST -/

theorem State.encryptedMessage_fits {s : State} (hp : s.params.Legal) (hL : s.srcLen.toNat ≤ s.params.maxlen) :
    s.encryptedMessage.length ≤ s.params.maxlen := by
  obtain ⟨_, ⟨_, _, hmod⟩, _⟩ := hp
  simp only [State.encryptedMessage, blocksBytes_length, ceilDiv, State.srcBytes]
  omega

theorem State.decryptedMessage_fits {s : State} (hL : s.srcLen.toNat ≤ s.params.maxlen) :
    s.decryptedMessage.length ≤ s.params.maxlen := by
  simp only [State.decryptedMessage, blocksBytes_length, State.srcBytes]
  omega

theorem State.transposed_length (s : State) : s.transposed.length = s.rowCount * s.keysSize := scatter_length _ _

theorem State.untransposed_fits {s : State} (hL : s.srcLen.toNat ≤ s.params.maxlen) :
    s.untransposed.length ≤ s.params.maxlen := by
  calc s.untransposed.length = s.srcLen.toNat / s.ni.toNat * s.ni.toNat := flatGrid_length _ _ _
    _ ≤ s.srcLen.toNat := Nat.div_mul_le_self _ _
    _ ≤ s.params.maxlen := hL

theorem stripPads_length_le (O : List Byte) : (stripPads O).length ≤ O.length := by
  have := (stripPads_spec O).1
  omega

/-! ## Validated keys are permutations -/

/-- A key of size `n` that passes the check of TCFG is a permutation of 1..n (R140). -/
theorem Table.isPermutationKey_of_validated {t : Table} {n : Nat}
    (h : firstOffending n [] 0 (t.readRange n) = none) : IsPermutationKey n t.read := by
  obtain ⟨hrange, hnodup⟩ := (firstOffending_none n _ [] 0).mp h
  constructor
  · intro j hj
    exact (hrange _ (List.mem_map_of_mem (List.mem_range.mpr hj))).1
  · intro i j hij hj he
    have := List.inj_on_of_nodup_map hnodup (List.mem_range.mpr (hij.trans hj)) (List.mem_range.mpr hj) he
    omega

theorem IsPermutationKey.congr {n : Nat} {f g : Nat → Word} (hf : IsPermutationKey n f) (h : ∀ j, j < n → g j = f j) :
    IsPermutationKey n g := by
  obtain ⟨hrange, hne⟩ := hf
  constructor
  · intro j hj
    rw [h j hj]
    exact hrange j hj
  · intro i j hij hj
    rw [h i (hij.trans hj), h j hj]
    exact hne i j hij hj

/-- A table that latches a permutation key holds it. -/
theorem Table.writeRange_isPermutationKey {t : Table} {n : Nat} (h : IsPermutationKey n t.read) (u : Table) :
    IsPermutationKey n (u.writeRange (t.readRange n)).read :=
  h.congr fun j hj => by rw [Table.read_writeRange, Table.readRange_length, if_pos hj, Table.getD_readRange t hj]

/-! ## Error codes -/

theorem ErrorKind.code_ne_zero (e : ErrorKind) : e.code ≠ 0#4 := by cases e <;> decide

theorem ErrorKind.code_le (e : ErrorKind) : e.code.toNat ≤ 8 := by cases e <;> decide

/-! ## Reset -/

theorem configParams_legal : Config.params.Legal := by
  refine ⟨Nat.mul_mod_right _ _, ⟨?_, ?_, ?_⟩, ?_, ?_⟩ <;> simp only [Config.params] <;> omega

theorem State.afterReset_inv {p : Params} (hp : p.Legal) (d : Nat) : (State.afterReset p d).Inv where
  params := hp
  wf := ⟨.nil, .nil, .nil, .nil, .nil, .nil⟩
  srcFits := fun _ hc => absurd hc List.not_mem_nil
  tablesFit := fun _ hc => absurd hc List.not_mem_nil
  dstLenFits := Nat.zero_le _
  dstExtent := rfl
  busyClean := fun h => absurd h Bool.false_ne_true
  errDone := fun h => absurd h Bool.false_ne_true
  noErr := fun _ => ⟨rfl, rfl⟩
  codes := ⟨Nat.zero_le _, fun _ hc => absurd hc List.not_mem_nil⟩
  keys := fun h => absurd h Bool.false_ne_true

/-! ## Every update keeps the invariant -/

namespace State.Inv

variable {s : State}

theorem platformReset (h : s.Inv) : s.platformReset.Inv :=
  { State.afterReset_inv h.params s.drawn with codes := ⟨Nat.zero_le _, h.codes.2⟩ }

theorem popTurn (h : s.Inv) : s.popTurn.Inv := { h with }

/-- The Host's own variables and the count of draws are no part of the invariant. -/
theorem withHost (h : s.Inv) (p : List HostOp) (v : Word) (d : Nat) :
    State.Inv { s with hostProg := p, hostVar := v, drawn := d } := { h with }

theorem issue (h : s.Inv) (c : Word) : (s.issue c).Inv :=
  { h with
    busyClean := fun _ => ⟨rfl, rfl⟩
    errDone := fun he => absurd he Bool.false_ne_true
    noErr := fun _ => ⟨rfl, rfl⟩
    codes := ⟨Nat.zero_le _, h.codes.2⟩ }

theorem complete (h : s.Inv) : s.complete.Inv :=
  { h with
    busyClean := fun hb => absurd hb Bool.false_ne_true
    errDone := fun he => ⟨rfl, (h.errDone he).2⟩
    codes := ⟨h.codes.1, List.forall_mem_cons.mpr h.codes⟩ }

theorem raise (h : s.Inv) (x : Raised) : (s.raise x).Inv :=
  { h with
    busyClean := fun hb => absurd hb Bool.false_ne_true
    errDone := fun _ => ⟨rfl, x.error.code_ne_zero⟩
    noErr := fun he => absurd he.symm Bool.false_ne_true
    codes := ⟨x.error.code_le, List.forall_mem_cons.mpr ⟨x.error.code_le, h.codes.2⟩⟩ }

theorem withFlow (h : s.Inv) (b : Block) : (s.withFlow b).Inv := { h with }

theorem withKeySchedule (h : s.Inv) (rk : Vector Word 16) :
    State.Inv { s with rk := rk, status := s.status.withKeySchedule } := { h with }

theorem writeResult (h : s.Inv) {bytes : List Byte} (hb : bytes.length ≤ s.params.maxlen) :
    (s.writeResult bytes).Inv := by
  obtain ⟨wsrc, _, wtables⟩ := h.wf
  obtain ⟨_, ⟨_, hmax, _⟩, _⟩ := h.params
  have hlen : (s.writeResult bytes).dstLen.toNat = bytes.length := by
    rw [State.writeResult_dstLen, BitVec.toNat_ofNat, Nat.mod_eq_of_lt (by omega)]
  exact { h with
    wf := ⟨wsrc, Memory.fresh_wf bytes s.drawn, wtables⟩
    dstLenFits := hlen ▸ hb
    dstExtent := by rw [hlen, State.writeResult_dst, cellsFrom_keys, List.range_eq_range'] }

theorem writeSrc (h : s.Inv) {k : Nat} {bytes : List Byte} (hb : k + bytes.length ≤ s.params.maxlen) (len : Word) :
    State.Inv { s with src := s.src.writeRange k bytes, srcLen := len } :=
  { h with
    wf := ⟨Memory.writeRange_wf h.wf.1 k bytes, h.wf.2⟩
    srcFits := putRange_below h.srcFits hb }

theorem moveResult (h : s.Inv) : s.moveResult.Inv :=
  h.writeSrc (by rw [Memory.readRange_length, Nat.zero_add]; exact h.dstLenFits) s.dstLen

/-- The bounds of the four tables, one by one. -/
theorem tablesFit_iff (s : State) : (∀ c ∈ s.fk.cells ++ s.sk.cells ++ s.fki.cells ++ s.ski.cells, c.1 < s.params.nmax) ↔
    ((∀ c ∈ s.fk.cells, c.1 < s.params.nmax) ∧ ∀ c ∈ s.sk.cells, c.1 < s.params.nmax) ∧
      (∀ c ∈ s.fki.cells, c.1 < s.params.nmax) ∧ ∀ c ∈ s.ski.cells, c.1 < s.params.nmax := by
  simp only [List.forall_mem_append, and_assoc]

theorem writeFk (h : s.Inv) {j : Nat} (hj : j < s.params.nmax) (v : Word) :
    State.Inv { s with fk := s.fk.write j v } := by
  obtain ⟨wsrc, wdst, wfk, wrest⟩ := h.wf
  obtain ⟨⟨ffk, fsk⟩, flatched⟩ := (tablesFit_iff s).mp h.tablesFit
  exact { h with
    wf := ⟨wsrc, wdst, Table.write_wf wfk j v, wrest⟩
    tablesFit := (tablesFit_iff _).mpr ⟨⟨putCell_below v ffk hj, fsk⟩, flatched⟩ }

theorem writeSk (h : s.Inv) {j : Nat} (hj : j < s.params.nmax) (v : Word) :
    State.Inv { s with sk := s.sk.write j v } := by
  obtain ⟨wsrc, wdst, wfk, wsk, wlatched⟩ := h.wf
  obtain ⟨⟨ffk, fsk⟩, flatched⟩ := (tablesFit_iff s).mp h.tablesFit
  exact { h with
    wf := ⟨wsrc, wdst, wfk, Table.write_wf wsk j v, wlatched⟩
    tablesFit := (tablesFit_iff _).mpr ⟨⟨ffk, putCell_below v fsk hj⟩, flatched⟩ }

/-- TCFG latches keys that passed its checks (R140). -/
theorem latchKeys (h : s.Inv) (hn : 1 ≤ s.tpN.toNat ∧ s.tpN.toNat ≤ s.params.nmax)
    (hfk : IsPermutationKey s.tpN.toNat s.fk.read) (hsk : IsPermutationKey s.tpN.toNat s.sk.read) :
    (s.latchKeys s.tpN.toNat).Inv := by
  obtain ⟨wsrc, wdst, wfk, wsk, wfki, wski⟩ := h.wf
  obtain ⟨fstaged, ffki, fski⟩ := (tablesFit_iff s).mp h.tablesFit
  have hlen (t : Table) : 0 + (t.readRange s.tpN.toNat).length ≤ s.params.nmax := by
    rw [Table.readRange_length, Nat.zero_add]
    exact hn.2
  exact { h with
    wf := ⟨wsrc, wdst, wfk, wsk, Table.writeRange_wf wfki _, Table.writeRange_wf wski _⟩
    tablesFit := (tablesFit_iff _).mpr ⟨fstaged, putRange_below ffki (hlen _), putRange_below fski (hlen _)⟩
    keys := fun _ => ⟨hn, Table.writeRange_isPermutationKey hfk _, Table.writeRange_isPermutationKey hsk _⟩ }

/-! ## Every agent's turn keeps the invariant -/

/-- A host write to a target of the window (R55, R200). -/
theorem storeAt (h : s.Inv) {t : Target} (ht : t.Fits s.params) (v : Word) : (s.storeAt t v).Inv := by
  cases t with
  | cmd => exact h.issue v
  | fk j => exact h.writeFk ht v
  | sk j => exact h.writeSk ht v
  | src q =>
    obtain ⟨_, ⟨_, _, hmod⟩, _⟩ := h.params
    have hq : 4 * q < s.params.maxlen := ht
    have hfit : 4 * q + (flowBytes (unpack v)).length ≤ s.params.maxlen := by
      simp only [flowBytes, List.length_cons, List.length_nil]
      omega
    exact h.writeSrc hfit s.srcLen
  | id | status | errinfo | dstLen | rk | dst | unmapped => exact h
  | keyLen | tpN | tpSkLen | srcLen | key | flow => exact { h with }

theorem busWrite (h : s.Inv) (off : Nat) (v : Word) : (s.busWrite off v).Inv := by
  rcases busWrite_cases s off v with e | ⟨_, e⟩ <;> rw [e]
  · exact h
  · exact h.storeAt (targetAt_fits s.params off) v

theorem hostTurn (h : s.Inv) {t : State} (ht : s.hostTurn = .next t) : t.Inv := by
  rcases hostTurn_next ht with ⟨p, v, d, rfl⟩ | ⟨p, off, w, rfl⟩
  · exact h.withHost p v d
  · exact (h.busWrite off w).withHost p _ _

/-- The result state of every command, before it completes. -/
theorem resultOf (h : s.Inv) {i : Instr} {r : State} (hr : ResultOf s r i) : r.Inv := by
  cases i with
  | nop => exact hr ▸ h
  | ksched =>
    obtain ⟨_, rfl⟩ := hr
    exact h.withKeySchedule _
  | renc | rdec | benc | bdec =>
    obtain ⟨_, rfl⟩ := hr
    exact h.withFlow _
  | menc =>
    obtain ⟨_, hL, rfl⟩ := hr
    exact h.writeResult (State.encryptedMessage_fits h.params hL)
  | mdec nt =>
    obtain ⟨_, hL, _, rfl⟩ := hr
    exact h.writeResult ((List.length_take_le' _ _).trans (State.decryptedMessage_fits hL))
  | tcfg =>
    obtain ⟨hn, _, hfk, hsk, rfl⟩ := hr
    exact h.latchKeys hn (Table.isPermutationKey_of_validated hfk) (Table.isPermutationKey_of_validated hsk)
  | tenc =>
    obtain ⟨_, _, hM, rfl⟩ := hr
    exact h.writeResult (s.transposed_length ▸ hM)
  | tdec nt =>
    obtain ⟨_, hL, _, rfl⟩ := hr
    cases nt with
    | true => exact h.writeResult (State.untransposed_fits hL)
    | false => exact h.writeResult ((stripPads_length_le _).trans (State.untransposed_fits hL))
  | trimz =>
    obtain ⟨hL, _, rfl⟩ := hr
    refine h.writeResult ?_
    rw [Memory.readRange_length]
    exact (trimzLen_spec _ _).1.trans hL
  | trimp =>
    obtain ⟨hL, rfl⟩ := hr
    refine h.writeResult ((stripPads_length_le _).trans ?_)
    rw [Memory.readRange_length]
    exact hL
  | move => exact hr ▸ h.moveResult

theorem completeStep (h : s.Inv) {t : State} (ht : s.completeStep = .next t) : t.Inv := by
  rcases completeStep_cases ht with ⟨i, r, _, hr, rfl⟩ | ⟨x, rfl⟩
  · exact (h.resultOf hr).complete
  · exact h.raise x

theorem step (h : s.Inv) {t : State} (ht : Machine.step s = .next t) : t.Inv := by
  rcases step_cases ht with ⟨_, hhost⟩ | ⟨_, _, hengine⟩ | ⟨_, _, rfl⟩ | ⟨_, rfl⟩
  · exact h.popTurn.hostTurn hhost
  · exact h.popTurn.completeStep hengine
  · exact h.popTurn
  · exact h.popTurn.platformReset

end State.Inv

end Sys2Proof.Machine

/-- Settles O31: any machine with legal parameters meets the invariant right after reset, and this hardware's are legal. -/
theorem resetMeetsTheInvariant : Obligations.ResetMeetsTheInvariant :=
  Sys2Proof.Machine.State.afterReset_inv Sys2Proof.Machine.configParams_legal 0

/-- Settles O32, by what a step can do: a Host turn, a complete step, an idle engine's turn or a reset, each of which
keeps the invariant. -/
theorem everyStepKeepsTheInvariant : Obligations.EveryStepKeepsTheInvariant := fun _ _ h ht => h.step ht

end

section
/-! PROOFS. What each command and each agent leaves unchanged (O27 to O30, O33 to O35), the window as memory (O40), the
places of the STATUS fields (O42), and what a reset gives (O46). -/

namespace Sys2Proof.Machine

variable {s r t : State} {i : Instr}

/-! ## The result of a command, by what it writes -/

theorem ResultOf.eq_withFlow (hi : (∃ n, i = .renc n) ∨ (∃ n, i = .rdec n) ∨ i = .benc ∨ i = .bdec)
    (h : ResultOf s r i) : ∃ b, r = s.withFlow b := by
  rcases hi with ⟨_, rfl⟩ | ⟨_, rfl⟩ | rfl | rfl
  all_goals
    obtain ⟨_, rfl⟩ := h
    exact ⟨_, rfl⟩

theorem ResultOf.eq_writeResult
    (hi : i = .menc ∨ (∃ nt, i = .mdec nt) ∨ i = .trimz ∨ i = .tenc ∨ (∃ nt, i = .tdec nt) ∨ i = .trimp)
    (h : ResultOf s r i) : ∃ bytes, r = s.writeResult bytes := by
  rcases hi with rfl | ⟨_, rfl⟩ | rfl | rfl | ⟨_, rfl⟩ | rfl
  · obtain ⟨_, _, rfl⟩ := h
    exact ⟨_, rfl⟩
  · obtain ⟨_, _, _, rfl⟩ := h
    exact ⟨_, rfl⟩
  · obtain ⟨_, _, rfl⟩ := h
    exact ⟨_, rfl⟩
  · obtain ⟨_, _, _, rfl⟩ := h
    exact ⟨_, rfl⟩
  · obtain ⟨_, _, _, rfl⟩ := h
    exact ⟨_, rfl⟩
  · obtain ⟨_, rfl⟩ := h
    exact ⟨_, rfl⟩

/-- The six ways a result state differs from the state at issue (10_state.md R42). -/
inductive ResultShape (s : State) : State → Instr → Prop
  | same : ResultShape s s .nop
  | schedule (hlen : s.keyLen = 16#32) :
      ResultShape s { s with rk := s.schedule, status := s.status.withKeySchedule } .ksched
  | keys (hlen : s.tpSkLen = s.tpN) (hfk : IsPermutationKey s.tpN.toNat s.fk.read)
      (hsk : IsPermutationKey s.tpN.toNat s.sk.read) : ResultShape s (s.latchKeys s.tpN.toNat) .tcfg
  | flow {i : Instr} (b : Block) : ResultShape s (s.withFlow b) i
  | result {i : Instr} (bytes : List Byte) : ResultShape s (s.writeResult bytes) i
  | moved : ResultShape s s.moveResult .move

theorem ResultOf.shape (h : ResultOf s r i) : ResultShape s r i := by
  cases i with
  | nop => exact h ▸ .same
  | ksched =>
    obtain ⟨hlen, rfl⟩ := h
    exact .schedule hlen
  | renc | rdec | benc | bdec =>
    obtain ⟨b, rfl⟩ := h.eq_withFlow (by simp)
    exact .flow b
  | menc | mdec | trimz | tenc | tdec | trimp =>
    obtain ⟨bytes, rfl⟩ := h.eq_writeResult (by simp)
    exact .result bytes
  | tcfg =>
    obtain ⟨_, hlen, hfk, hsk, rfl⟩ := h
    exact .keys hlen (Table.isPermutationKey_of_validated hfk) (Table.isPermutationKey_of_validated hsk)
  | move => exact h ▸ .moved

theorem exec_nop (s : State) : exec .nop s = .next s.complete := rfl

theorem exec_move (s : State) : exec .move s = .next s.moveResult.complete := rfl

/-! ## Key material -/

/-- RK and RK_VALID are the same in both states. -/
def State.SameSchedule (s t : State) : Prop := t.rk = s.rk ∧ t.status.rkValid = s.status.rkValid

/-- NI, FKI, SKI and TP_VALID are the same in both states. -/
def State.SameKeys (s t : State) : Prop :=
  t.ni = s.ni ∧ t.fki = s.fki ∧ t.ski = s.ski ∧ t.status.tpValid = s.status.tpValid

/-- Only KSCHED with KEY_LEN = 16 touches RK or RK_VALID, which it sets (R33, R100). -/
theorem ResultShape.schedule_cases (h : ResultShape s r i) :
    s.SameSchedule r ∨ (i = .ksched ∧ s.keyLen = 16#32 ∧ r.status.rkValid = true) := by
  cases h with
  | schedule hlen => exact .inr ⟨rfl, hlen, rfl⟩
  | same | keys | flow | result | moved => exact .inl ⟨rfl, rfl⟩

/-- Only TCFG with two permutations staged touches NI, FKI, SKI or TP_VALID, which it sets (R38, R140). -/
theorem ResultShape.keys_cases (h : ResultShape s r i) :
    s.SameKeys r ∨ (i = .tcfg ∧ s.tpSkLen = s.tpN ∧ IsPermutationKey s.tpN.toNat s.fk.read ∧
      IsPermutationKey s.tpN.toNat s.sk.read ∧ r.status.tpValid = true) := by
  cases h with
  | keys hlen hfk hsk => exact .inr ⟨rfl, hlen, hfk, hsk, rfl⟩
  | same | schedule | flow | result | moved => exact .inl ⟨rfl, rfl, rfl, rfl⟩

/-! ## A Host turn -/

/-- What no transaction of the Host reaches: key material, DST, DST_LEN and the history (R33, R37, R38). -/
structure State.EngineStateKept (s t : State) : Prop where
  rk : t.rk = s.rk
  ni : t.ni = s.ni
  fki : t.fki = s.fki
  ski : t.ski = s.ski
  dst : t.dst = s.dst
  dstLen : t.dstLen = s.dstLen
  history : t.history = s.history

theorem storeAt_engineStateKept (s : State) (a : Target) (v : Word) : s.EngineStateKept (s.storeAt a v) := by
  obtain ⟨hrk, hni, hfki, hski, hdst, hlen, hhist, _⟩ := storeAt_engine s a v
  exact ⟨hrk, hni, hfki, hski, hdst, hlen, hhist⟩

/-- The Host changes STATUS, CMD and ERRINFO only by issuing a command (R42, R200). -/
def State.UntouchedOrIssued (s t : State) : Prop :=
  (t.status = s.status ∧ t.cmd = s.cmd ∧ t.errinfo = s.errinfo) ∨
    (s.status.busy = false ∧ t.status = s.status.issued ∧ t.errinfo = 0#32)

theorem storeAt_untouchedOrIssued (hb : s.status.busy = false) (a : Target) (v : Word) :
    s.UntouchedOrIssued (s.storeAt a v) := by
  by_cases ha : a = .cmd
  · subst ha
    exact .inr ⟨hb, rfl, rfl⟩
  · obtain ⟨_, _, _, _, _, _, _, _, _, hkept⟩ := storeAt_engine s a v
    exact .inl (hkept ha)

theorem hostTurn_keeps (h : s.hostTurn = .next t) : s.EngineStateKept t ∧ s.UntouchedOrIssued t := by
  rcases hostTurn_next h with ⟨_, _, _, rfl⟩ | ⟨_, off, w, rfl⟩
  · exact ⟨⟨rfl, rfl, rfl, rfl, rfl, rfl, rfl⟩, .inl ⟨rfl, rfl, rfl⟩⟩
  · rcases busWrite_cases s off w with e | ⟨hb, e⟩ <;> rw [e]
    · exact ⟨⟨rfl, rfl, rfl, rfl, rfl, rfl, rfl⟩, .inl ⟨rfl, rfl, rfl⟩⟩
    · exact ⟨{ storeAt_engineStateKept s (targetAt s.params off) w with },
        storeAt_untouchedOrIssued hb (targetAt s.params off) w⟩

theorem State.UntouchedOrIssued.validBits (h : s.UntouchedOrIssued t) :
    t.status.rkValid = s.status.rkValid ∧ t.status.tpValid = s.status.tpValid := by
  rcases h with ⟨e, _⟩ | ⟨_, e, _⟩ <;> rw [e]
  · exact ⟨rfl, rfl⟩
  · exact ⟨rfl, rfl⟩

/-! ## Key material across a step -/

/-- WHAT A STEP CAN DO TO THE SCHEDULE: a reset apart, nothing, or a complete step of KSCHED sets it (R33, R39, R64). -/
theorem step_schedule (hm : s.mover ≠ .platformReset) (h : step s = .next t) :
    s.SameSchedule t ∨
      ((s.mover = .engine ∧ s.status.busy = true ∧ s.cmd = 0x00000001#32 ∧ s.keyLen = 16#32) ∧
        t.status.rkValid = true) := by
  rcases step_cases h with ⟨_, hhost⟩ | ⟨he, hb, hengine⟩ | ⟨_, _, rfl⟩ | ⟨hreset, _⟩
  · obtain ⟨hkept, hstatus⟩ := hostTurn_keeps hhost
    exact .inl ⟨hkept.rk, hstatus.validBits.1⟩
  · rcases completeStep_cases hengine with ⟨i, r, hi, hr, rfl⟩ | ⟨x, rfl⟩
    · rcases hr.shape.schedule_cases with hsame | ⟨rfl, hlen, hset⟩
      · exact .inl hsame
      · obtain ⟨hcmd, _⟩ := decode_word hi
        exact .inr ⟨⟨he, hb, hcmd rfl, hlen⟩, hset⟩
    · exact .inl ⟨rfl, rfl⟩
  · exact .inl ⟨rfl, rfl⟩
  · exact absurd hreset hm

/-- WHAT A STEP CAN DO TO THE LATCHED KEYS: a reset apart, nothing, or a complete step of TCFG with two permutations staged
latches them (R38, R39, R64). -/
theorem step_keys (hm : s.mover ≠ .platformReset) (h : step s = .next t) :
    s.SameKeys t ∨
      ((s.mover = .engine ∧ s.status.busy = true ∧ s.cmd = 0x00000008#32) ∧ s.tpSkLen = s.tpN ∧
        IsPermutationKey s.tpN.toNat s.fk.read ∧ IsPermutationKey s.tpN.toNat s.sk.read ∧ t.status.tpValid = true) := by
  rcases step_cases h with ⟨_, hhost⟩ | ⟨he, hb, hengine⟩ | ⟨_, _, rfl⟩ | ⟨hreset, _⟩
  · obtain ⟨hkept, hstatus⟩ := hostTurn_keeps hhost
    exact .inl ⟨hkept.ni, hkept.fki, hkept.ski, hstatus.validBits.2⟩
  · rcases completeStep_cases hengine with ⟨i, r, hi, hr, rfl⟩ | ⟨x, rfl⟩
    · rcases hr.shape.keys_cases with hsame | ⟨rfl, hlatched⟩
      · exact .inl hsame
      · obtain ⟨_, hcmd, _⟩ := decode_word hi
        exact .inr ⟨⟨he, hb, hcmd rfl⟩, hlatched⟩
    · exact .inl ⟨rfl, rfl, rfl, rfl⟩
  · exact .inl ⟨rfl, rfl, rfl, rfl⟩
  · exact absurd hreset hm

/-! ## An engine's turn -/

/-- What no command writes: CMD, the staging registers and tables, and the Host's own state (R23, R42). -/
structure State.HostStateKept (s t : State) : Prop where
  cmd : t.cmd = s.cmd
  keyLen : t.keyLen = s.keyLen
  key : t.key = s.key
  tpN : t.tpN = s.tpN
  tpSkLen : t.tpSkLen = s.tpSkLen
  fk : t.fk = s.fk
  sk : t.sk = s.sk
  hostProg : t.hostProg = s.hostProg
  hostVar : t.hostVar = s.hostVar

theorem ResultOf.hostStateKept (h : ResultOf s r i) : s.HostStateKept r := by
  obtain ⟨_, _, _, _, hcmd, _, _, hprog, hvar, hkey, hkeyLen, htpN, htpSkLen, hfk, hsk, _⟩ := h.keeps
  exact ⟨hcmd, hkeyLen, hkey, htpN, htpSkLen, hfk, hsk, hprog, hvar⟩

/-- Only MOVE writes SRC and SRC_LEN (R36, R161). -/
theorem ResultShape.src_cases (h : ResultShape s r i) : (r.src = s.src ∧ r.srcLen = s.srcLen) ∨ i = .move := by
  cases h with
  | moved => exact .inr rfl
  | same | schedule | keys | flow | result => exact .inl ⟨rfl, rfl⟩

theorem completeStep_keeps (h : s.completeStep = .next t) :
    s.HostStateKept t ∧ (s.cmd ≠ 0x0000000D#32 → t.src = s.src ∧ t.srcLen = s.srcLen) := by
  rcases completeStep_cases h with ⟨i, r, hi, hr, rfl⟩ | ⟨x, rfl⟩
  · refine ⟨{ hr.hostStateKept with }, fun hmove => ?_⟩
    rcases hr.shape.src_cases with hsame | rfl
    · exact hsame
    · obtain ⟨_, _, hcmd⟩ := decode_word hi
      exact absurd (hcmd rfl) hmove
  · exact ⟨⟨rfl, rfl, rfl, rfl, rfl, rfl, rfl, rfl, rfl⟩, fun _ => ⟨rfl, rfl⟩⟩

theorem engineStep_keeps (he : s.mover = .engine) (h : step s = .next t) :
    s.HostStateKept t ∧ (s.cmd ≠ 0x0000000D#32 → t.src = s.src ∧ t.srcLen = s.srcLen) := by
  rcases step_cases h with ⟨hm, _⟩ | ⟨_, _, hengine⟩ | ⟨_, _, rfl⟩ | ⟨hm, _⟩
  · exact absurd (he.symm.trans hm) (by decide)
  · obtain ⟨hkept, hsrc⟩ := completeStep_keeps hengine
    exact ⟨{ hkept with }, hsrc⟩
  · exact ⟨⟨rfl, rfl, rfl, rfl, rfl, rfl, rfl, rfl, rfl⟩, fun _ => ⟨rfl, rfl⟩⟩
  · exact absurd (he.symm.trans hm) (by decide)

theorem hostStep_keeps (hm : s.mover = .host) (h : step s = .next t) : s.EngineStateKept t ∧ s.UntouchedOrIssued t := by
  rcases step_cases h with ⟨_, hhost⟩ | ⟨he, _⟩ | ⟨he, _⟩ | ⟨he, _⟩
  · obtain ⟨hkept, hstatus⟩ := hostTurn_keeps hhost
    exact ⟨{ hkept with }, hstatus⟩
  all_goals exact absurd (hm.symm.trans he) (by decide)

/-! ## Stores and the values that stand in the window -/

/-- A write stores its word here, for a read to give back: the read and write registers, entries and words (R50). -/
def Target.readWrite : Target → Bool
  | .keyLen | .tpN | .tpSkLen | .srcLen | .key _ | .flow _ | .fk _ | .sk _ | .src _ => true
  | .id | .cmd | .status | .errinfo | .dstLen | .rk _ | .dst _ | .unmapped => false

theorem Target.ne_cmd_of_readWrite {a : Target} (h : a.readWrite = true) : a ≠ .cmd := by
  rintro rfl
  cases h

theorem valueAt_storeAt_same {a : Target} (h : a.readWrite = true) (s : State) (v : Word) :
    (s.storeAt a v).valueAt a = v := by
  cases a with
  | keyLen | tpN | tpSkLen | srcLen => rfl
  | key w | flow w => simp [State.storeAt, State.valueAt]
  | fk j | sk j => simp [State.storeAt, State.valueAt]
  | src q => exact readWord_writeWord_same s.src q v
  | id | cmd | status | errinfo | dstLen | rk | dst | unmapped => cases h

/-- A store shows at its own target only; CMD's issue apart, which changes STATUS and ERRINFO. -/
theorem valueAt_storeAt_other {a b : Target} (hcmd : a ≠ .cmd) (h : b ≠ a) (s : State) (v : Word) :
    (s.storeAt a v).valueAt b = s.valueAt b := by
  cases a with
  | cmd => exact absurd rfl hcmd
  | id | status | errinfo | dstLen | rk | dst | unmapped => rfl
  | keyLen =>
    cases b with
    | keyLen => exact absurd rfl h
    | _ => rfl
  | tpN =>
    cases b with
    | tpN => exact absurd rfl h
    | _ => rfl
  | tpSkLen =>
    cases b with
    | tpSkLen => exact absurd rfl h
    | _ => rfl
  | srcLen =>
    cases b with
    | srcLen => exact absurd rfl h
    | _ => rfl
  | key w =>
    cases b with
    | key w' => exact Vector.getElem_set_ne w.isLt w'.isLt fun e => h (congrArg Target.key (Fin.ext e.symm))
    | _ => rfl
  | flow p =>
    cases b with
    | flow p' => exact Vector.getElem_set_ne p.isLt p'.isLt fun e => h (congrArg Target.flow (Fin.ext e.symm))
    | _ => rfl
  | fk j =>
    cases b with
    | fk j' => exact (Table.read_write s.fk j v j').trans (if_neg fun e => h (congrArg Target.fk e.symm))
    | _ => rfl
  | sk j =>
    cases b with
    | sk j' => exact (Table.read_write s.sk j v j').trans (if_neg fun e => h (congrArg Target.sk e.symm))
    | _ => rfl
  | src q =>
    cases b with
    | src q' => exact readWord_writeWord_other s.src v fun e => h (congrArg Target.src e)
    | _ => rfl

/-- A write to an idle core, CMD's apart, and then a read. -/
theorem busRead_busWrite (hb : s.status.busy = false) {off : Nat} (hcmd : targetAt s.params off ≠ .cmd) (v : Word)
    (off' : Nat) : ((s.busWrite off v).busRead off').1 =
      (s.storeAt (targetAt s.params off) v).valueAt (targetAt s.params off') := by
  have hidle : (s.storeAt (targetAt s.params off) v).status.busy = false := by rw [storeAt_status s v hcmd, hb]
  rw [busWrite_idle hb, busRead_idle hidle, storeAt_params]

/-! ## The read and write offsets -/

theorem registerAt_readWrite {w : Nat} (h : (4 ≤ w ∧ w < 8) ∨ (12 ≤ w ∧ w < 20)) :
    (registerAt w).readWrite = true := by
  rcases h with ⟨hlo, hhi⟩ | ⟨hlo, hhi⟩
  · interval_cases w <;> rfl
  · interval_cases w <;> rfl

theorem targetAt_readWrite_register (p : Params) {off : Nat} (h : (0x10 ≤ off ∧ off < 0x20) ∨ (0x30 ≤ off ∧ off < 0x50)) :
    (targetAt p off).readWrite = true := by
  rw [targetAt, if_pos (by omega)]
  exact registerAt_readWrite (by omega)

theorem targetAt_readWrite_fk {p : Params} {off : Nat} (h4 : off % 4 = 0) (hlo : 0x1000 ≤ off) (hhi : off < 0x2000)
    (hn : (off - 0x1000) / 4 < p.nmax) : (targetAt p off).readWrite = true := by
  obtain ⟨j, rfl⟩ : ∃ j, off = 0x1000 + 4 * j := ⟨(off - 0x1000) / 4, by omega⟩
  rw [targetAt_fk p (by omega) (by omega)]
  rfl

theorem targetAt_readWrite_sk {p : Params} {off : Nat} (h4 : off % 4 = 0) (hlo : 0x2000 ≤ off) (hhi : off < 0x3000)
    (hn : (off - 0x2000) / 4 < p.nmax) : (targetAt p off).readWrite = true := by
  obtain ⟨j, rfl⟩ : ∃ j, off = 0x2000 + 4 * j := ⟨(off - 0x2000) / 4, by omega⟩
  rw [targetAt_sk p (by omega) (by omega)]
  rfl

theorem targetAt_readWrite_src {p : Params} {off : Nat} (h4 : off % 4 = 0) (hlo : 0x10000 ≤ off) (hhi : off < 0x20000)
    (hn : off - 0x10000 < p.maxlen) : (targetAt p off).readWrite = true := by
  obtain ⟨q, rfl⟩ : ∃ q, off = 0x10000 + 4 * q := ⟨(off - 0x10000) / 4, by omega⟩
  rw [targetAt_src p (by omega) (by omega)]
  rfl

/-- CMD stands at its own offset only. -/
theorem targetAt_ne_cmd (p : Params) {off : Nat} (h4 : off % 4 = 0) (h : off ≠ 0x004) : targetAt p off ≠ .cmd :=
  fun e => h (eq_offset h4 (by decide) e)

/-- A write to an idle core, CMD's apart, leaves the value at every other aligned offset (R61). -/
theorem busRead_busWrite_other (hb : s.status.busy = false) {off off' : Nat} (h4 : off % 4 = 0) (h4' : off' % 4 = 0)
    (hcmd : off ≠ 0x004) (hne : off' ≠ off) (v : Word) :
    ((s.busWrite off v).busRead off').1 = (s.busRead off').1 := by
  have hcmd' := targetAt_ne_cmd s.params h4 hcmd
  rw [busRead_busWrite hb hcmd', busRead_idle hb]
  by_cases hsame : targetAt s.params off' = targetAt s.params off
  · have hunmapped : targetAt s.params off = .unmapped := by
      by_contra hu
      exact hne ((eq_offset h4' hu hsame).trans (targetAt_offset h4 hu))
    rw [hunmapped]
    rfl
  · exact valueAt_storeAt_other hcmd' hsame s v

/-! ## STATUS as a word -/

theorem getLsbD_flagBit (b : Bool) {m : Nat} (hm : m < 32) (n : Nat) :
    (flagBit b m).getLsbD n = (b && decide (n = m)) := by
  cases b with
  | false => simp [flagBit]
  | true =>
    simp only [flagBit, if_true, BitVec.getLsbD_shiftLeft, BitVec.getLsbD_one, Bool.true_and]
    by_cases hn : n = m
    · simp [hn, hm]
    · have : ¬ (n - m = 0 ∧ m ≤ n) := by omega
      simp [hn]
      omega

/-- Bit `n` of STATUS (R24). -/
theorem Status.getLsbD_toWord (t : Status) (n : Nat) : t.toWord.getLsbD n =
    (t.busy && decide (n = 0) || t.done && decide (n = 1) || t.err && decide (n = 2) ||
      decide (8 ≤ n) && t.errcode.getLsbD (n - 8) || t.rkValid && decide (n = 16) || t.tpValid && decide (n = 17)) := by
  have hcode : (t.errcode.setWidth 32 <<< 8).getLsbD n = (decide (8 ≤ n) && t.errcode.getLsbD (n - 8)) := by
    by_cases hn : n < 12
    · have h8 : decide (8 ≤ n) = !decide (n < 8) := (decide_eq_decide.mpr Nat.not_lt.symm).trans decide_not
      simp [show n < 32 by omega, h8]
    · have : t.errcode.getLsbD (n - 8) = false := BitVec.getLsbD_of_ge _ _ (by omega)
      simp [this]
  simp only [Status.toWord, BitVec.getLsbD_or, hcode, getLsbD_flagBit _ (show 0 < 32 by decide),
    getLsbD_flagBit _ (show 1 < 32 by decide), getLsbD_flagBit _ (show 2 < 32 by decide),
    getLsbD_flagBit _ (show 16 < 32 by decide), getLsbD_flagBit _ (show 17 < 32 by decide)]

theorem Status.errcode_toWord (t : Status) : t.toWord.extractLsb' 8 4 = t.errcode := by
  apply BitVec.eq_of_getLsbD_eq
  intro n hn
  rw [BitVec.getLsbD_extractLsb', Status.getLsbD_toWord]
  simp [hn, show 8 + n ≠ 1 by omega, show 8 + n ≠ 2 by omega, show 8 + n ≠ 16 by omega,
    show 8 + n ≠ 17 by omega]

theorem Status.reserved_toWord (t : Status) {n : Nat} (h : (3 ≤ n ∧ n < 8) ∨ (12 ≤ n ∧ n < 16) ∨ 18 ≤ n) :
    t.toWord.getLsbD n = false := by
  have hcode : (decide (8 ≤ n) && t.errcode.getLsbD (n - 8)) = false := by
    by_cases hn : 8 ≤ n
    · rw [BitVec.getLsbD_of_ge _ _ (by omega), Bool.and_false]
    · simp [hn]
  rw [Status.getLsbD_toWord, hcode]
  simp [show n ≠ 0 by omega, show n ≠ 1 by omega, show n ≠ 2 by omega, show n ≠ 16 by omega, show n ≠ 17 by omega]

/-! ## A reset -/

theorem step_platformReset {rest : List Agent} (h : s.sched = .platformReset :: rest) :
    step s = .next s.popTurn.platformReset := by
  simp [step, State.mover, State.turn, h]

theorem registerAt_rk : ∀ r : Fin 16, registerAt (32 + r) = .rk r := by decide

theorem targetAt_rk (p : Params) (r : Fin 16) : targetAt p (0x80 + 4 * r) = .rk r := by
  rw [targetAt, if_pos (by omega), show (0x80 + 4 * r.val) / 4 = 32 + r.val by omega, registerAt_rk]

/-- RK reads as the reset's draw until KSCHED sets RK_VALID (R33, U3; log 6). -/
theorem platformReset_busRead_rk (s : State) (r : Fin 16) :
    (s.platformReset.busRead (0x80 + 4 * r)).1 = Config.freeWord (s.drawn + 6) r := by
  rw [busRead_idle rfl, targetAt_rk]
  rfl

end Sys2Proof.Machine

open Sys2Proof Sys2Proof.Machine

/-- Settles O27: a round command's result differs from the state at issue in FLOW, and an error writes no result. -/
theorem roundCommandsFrame : Obligations.RoundCommandsFrame := by
  intro i s t hi h
  rcases exec_cases h with ⟨r, hr, rfl⟩ | ⟨x, rfl⟩
  · obtain ⟨b, rfl⟩ := hr.eq_withFlow hi
    exact ⟨rfl, fun _ => ⟨rfl, rfl⟩⟩
  · exact ⟨rfl, fun _ => ⟨rfl, rfl⟩⟩

/-- Settles O28: a result goes to DST, DST_LEN and the count of draws, and an error writes none of them. -/
theorem resultCommandsFrame : Obligations.ResultCommandsFrame := by
  intro i s t hi h
  rcases exec_cases h with ⟨r, hr, rfl⟩ | ⟨x, rfl⟩
  · obtain ⟨bytes, rfl⟩ := hr.eq_writeResult hi
    exact ⟨rfl, fun _ => rfl, fun hs ht => absurd (hs.symm.trans ht) Bool.false_ne_true⟩
  · exact ⟨rfl, fun _ => rfl, fun _ _ => ⟨rfl, fun _ => rfl⟩⟩

/-- Settles O29: KSCHED's result differs in RK and RK_VALID and TCFG's in the latched keys and TP_VALID; an error writes no
result. -/
theorem keyCommandsFrame : Obligations.KeyCommandsFrame := by
  refine fun s t => ⟨fun h => ?_, fun h => ?_⟩
  · rcases exec_cases h with ⟨r, ⟨_, rfl⟩, rfl⟩ | ⟨x, rfl⟩
    · exact ⟨rfl, fun _ => ⟨rfl, rfl⟩⟩
    · exact ⟨rfl, fun _ => ⟨rfl, rfl⟩⟩
  · rcases exec_cases h with ⟨r, ⟨_, _, _, _, rfl⟩, rfl⟩ | ⟨x, rfl⟩
    · exact ⟨rfl, fun _ => ⟨rfl, rfl⟩⟩
    · exact ⟨rfl, fun _ => ⟨rfl, rfl⟩⟩

/-- Settles O33, by what a step can do to the schedule and to the latched keys. -/
theorem validBitsAreSetByTheirCommandAndClearedByReset :
    Obligations.ValidBitsAreSetByTheirCommandAndClearedByReset := by
  intro s t hm h
  have hrk := step_schedule hm h
  have htp := step_keys hm h
  refine ⟨fun hset => ?_, fun hset => ?_, fun hclear hset => ?_, fun hclear hset => ?_⟩
  · rcases hrk with ⟨_, e⟩ | ⟨_, e⟩
    · exact e.trans hset
    · exact e
  · rcases htp with ⟨_, _, _, e⟩ | ⟨_, _, _, _, e⟩
    · exact e.trans hset
    · exact e
  · rcases hrk with ⟨_, e⟩ | ⟨hksched, _⟩
    · exact absurd (hclear.symm.trans (e.symm.trans hset)) Bool.false_ne_true
    · exact hksched
  · rcases htp with ⟨_, _, _, e⟩ | ⟨⟨he, hb, hc⟩, _, hfk, hsk, _⟩
    · exact absurd (hclear.symm.trans (e.symm.trans hset)) Bool.false_ne_true
    · exact ⟨he, hb, hc, hfk, hsk⟩

/-- Settles O34, by what a step can do to the schedule and to the latched keys. -/
theorem keyMaterialChangesOnlyWhenLatched : Obligations.KeyMaterialChangesOnlyWhenLatched := by
  intro s t hm h
  refine ⟨fun hne => ?_, fun hne => ?_⟩
  · rcases step_schedule hm h with ⟨e, _⟩ | ⟨hksched, _⟩
    · exact absurd e hne
    · exact hksched
  · rcases step_keys hm h with ⟨eni, efki, eski, _⟩ | ⟨⟨he, hb, hc⟩, hlen, _⟩
    · rcases hne with hne | hne | hne
      · exact absurd eni hne
      · exact absurd efki hne
      · exact absurd eski hne
    · exact ⟨he, hb, hc, hlen⟩

/-- Settles O35: a Host turn is at most one store, which no engine state takes, and a command's result keeps the Host's
state. -/
theorem hostAndEngineWriteTheirOwnState : Obligations.HostAndEngineWriteTheirOwnState := by
  refine fun s t h => ⟨fun hm => ?_, fun he => ?_⟩
  · obtain ⟨⟨hrk, hni, hfki, hski, hdst, hlen, hhist⟩, hstatus⟩ := hostStep_keeps hm h
    refine ⟨hrk, hni, hfki, hski, hdst, hlen, hhist, ?_⟩
    rcases hstatus with hsame | ⟨hb, e, hinfo⟩
    · exact .inl hsame
    · rw [e]
      exact .inr ⟨hb, rfl, rfl, rfl, rfl, rfl, rfl, hinfo⟩
  · obtain ⟨⟨hcmd, hkeyLen, hkey, htpN, htpSkLen, hfk, hsk, hprog, hvar⟩, hsrc⟩ := engineStep_keeps he h
    exact ⟨hcmd, hkeyLen, hkey, htpN, htpSkLen, hfk, hsk, hprog, hvar, hsrc⟩

/-- Settles O40: a store shows at its own target and at no other, and every mapped target stands at one offset. -/
theorem windowReadAfterWrite : Obligations.WindowReadAfterWrite := by
  refine fun s off v hb h4 _ => ⟨fun hoff => ?_, fun hcmd off' h4' _ hne => busRead_busWrite_other hb h4 h4' hcmd hne v⟩
  have hrw : (targetAt s.params off).readWrite = true := by
    rcases hoff with h | h | ⟨hlo, hhi, hn⟩ | ⟨hlo, hhi, hn⟩ | ⟨hlo, hhi, hn⟩
    · exact targetAt_readWrite_register s.params (.inl h)
    · exact targetAt_readWrite_register s.params (.inr h)
    · exact targetAt_readWrite_fk h4 hlo hhi hn
    · exact targetAt_readWrite_sk h4 hlo hhi hn
    · exact targetAt_readWrite_src h4 hlo hhi hn
  rw [busRead_busWrite hb (Target.ne_cmd_of_readWrite hrw)]
  exact valueAt_storeAt_same hrw s v

/-- Settles O30: neither command raises an error, and MOVE writes SRC below DST_LEN. -/
theorem bufferCommandsFrame : Obligations.BufferCommandsFrame := by
  refine fun s t => ⟨fun h => ?_, fun h => ?_⟩
  · rw [exec_nop] at h
    cases h
    exact ⟨rfl, fun _ => ⟨rfl, rfl⟩⟩
  · rw [exec_move] at h
    cases h
    refine ⟨rfl, fun _ => rfl, fun k hk => ?_⟩
    rw [State.complete_src, State.moveResult_src, Memory.read_writeRange, Memory.readRange_length, if_neg (by omega)]

/-- Settles O42, bit by bit. -/
theorem statusFieldPlaces : Obligations.StatusFieldPlaces := by
  refine fun t => ⟨toWord_busy t, ?_, ?_, t.errcode_toWord, ?_, ?_, fun _ hn => t.reserved_toWord hn⟩
  · simpa using t.getLsbD_toWord 1
  · simpa using t.getLsbD_toWord 2
  · simpa using t.getLsbD_toWord 16
  · simpa using t.getLsbD_toWord 17

/-- Settles O46: the platform's turn is `State.platformReset`, whose fields are those of R43. -/
theorem resetGivesTheResetValues : Obligations.ResetGivesTheResetValues := by
  intro s rest h
  refine ⟨_, step_platformReset h, ?_, rfl, rfl, rfl, rfl, rfl, rfl, rfl, rfl, rfl, rfl, rfl, rfl, fun p => ⟨?_, ?_⟩,
    rfl, ?_, fun r hr => platformReset_busRead_rk s.popTurn ⟨r, hr⟩, fun k => ⟨rfl, rfl, rfl, rfl⟩⟩
  · rw [State.platformReset_sched, State.popTurn_sched, h, List.tail_cons]
  · exact Vector.getElem_replicate p.isLt
  · exact Vector.getElem_replicate p.isLt
  · rw [busRead_status]
    exact (by decide : Status.reset.toWord = 0#32)

end

section
/-! PROOFS. The window's transactions (20_memory.md): reads and writes while a command is pending (O37), offsets that ignore
a write (O38), transactions made twice (O39), byte lanes (O41), and the transactions that the model refuses (O43). -/

namespace Sys2Proof.Machine

variable {s : State} {off : Nat}

/-! ## Reads while a command is pending -/

/-- ID, CMD and STATUS, the registers that stay exact, are the first three words of the window (R50, R54). -/
theorem targetAt_exactWhileBusy_iff (p : Params) (h4 : off % 4 = 0) :
    (targetAt p off).exactWhileBusy = true ↔ off < 0x0C := by
  constructor
  · intro h
    cases ht : targetAt p off with
    | id | cmd | status =>
      rw [eq_offset h4 (by decide) ht]
      decide
    | _ =>
      rw [ht] at h
      cases h
  · intro h
    obtain rfl | rfl | rfl : off = 0x00 ∨ off = 0x04 ∨ off = 0x08 := by omega
    all_goals rfl

/-- A read that R54 leaves exact: the value that stands there, and no change. -/
theorem busRead_exact (h4 : off % 4 = 0) (h : s.status.busy = false ∨ off < 0x0C) :
    s.busRead off = (s.valueAt (targetAt s.params off), s) := by
  rcases h with hb | hoff
  · exact busRead_idle hb off
  · simp [State.busRead, (targetAt_exactWhileBusy_iff s.params h4).mpr hoff]

theorem busRead_pending (hb : s.status.busy = true) (h4 : off % 4 = 0) (hoff : 0x0C ≤ off) :
    s.busRead off = (Config.freeWord s.drawn off, { s with drawn := s.drawn + 1 }) := by
  have hfree : (targetAt s.params off).exactWhileBusy = false :=
    Bool.eq_false_iff.mpr fun h => absurd ((targetAt_exactWhileBusy_iff s.params h4).mp h) (by omega)
  simp [State.busRead, hb, hfree]

/-- No value of the window depends on the count of draws. -/
theorem valueAt_drawn (s : State) (d : Nat) (a : Target) : ({ s with drawn := d } : State).valueAt a = s.valueAt a := by
  cases a <;> rfl

theorem busRead_after_busRead (h4 : off % 4 = 0) (h : s.status.busy = false ∨ off < 0x0C) (off' : Nat) :
    ((s.busRead off').2.busRead off).1 = (s.busRead off).1 := by
  obtain ⟨d, hd⟩ := busRead_state s off'
  rw [hd, busRead_exact h4 h, busRead_exact (s := { s with drawn := d }) h4 h]
  exact valueAt_drawn s d _

/-! ## Offsets that ignore a write -/

/-- The reserved words below offset 0x1000: no register has one of these offsets (R50). -/
theorem registerAt_unmapped {w : Nat} (h : (9 ≤ w ∧ w < 12) ∨ (20 ≤ w ∧ w < 32) ∨ (48 ≤ w ∧ w < 0x400)) :
    registerAt w = .unmapped := by
  by_contra hu
  have hoff := registerAt_offset w hu
  cases ht : registerAt w with
  | unmapped => exact hu ht
  | _ =>
    rw [ht] at hoff
    simp only [Target.offset] at hoff
    omega

/-- Reserved ranges, entries past NMAX and words past MAXLEN (R50, R55). -/
theorem targetAt_unmapped {p : Params} (hoff : off < 0x30000)
    (h : (0x24 ≤ off ∧ off < 0x30) ∨ (0x50 ≤ off ∧ off < 0x80) ∨ (0xC0 ≤ off ∧ off < 0x1000) ∨
      (0x3000 ≤ off ∧ off < 0x10000) ∨
      (0x1000 ≤ off ∧ off < 0x2000 ∧ p.nmax ≤ (off - 0x1000) / 4) ∨
      (0x2000 ≤ off ∧ off < 0x3000 ∧ p.nmax ≤ (off - 0x2000) / 4) ∨
      (0x10000 ≤ off ∧ off < 0x20000 ∧ p.maxlen ≤ 4 * ((off - 0x10000) / 4)) ∨
      (0x20000 ≤ off ∧ p.maxlen ≤ 4 * ((off - 0x20000) / 4))) : targetAt p off = .unmapped := by
  rcases targetAt_cases p off with ⟨hlo, e⟩ | ⟨j, _, hj⟩ | ⟨j, _, hj⟩ | ⟨q, _, hq⟩ | ⟨q, _, hq⟩ | ⟨_, e⟩
  · exact e.trans (registerAt_unmapped (by omega))
  · omega
  · omega
  · omega
  · omega
  · exact e

/-- ID, STATUS, ERRINFO, DST_LEN, RK and the DST window: a write to one of them is ignored (R50, R55). -/
theorem targetAt_not_readWrite (p : Params)
    (h : off = 0x00 ∨ off = 0x08 ∨ off = 0x0C ∨ off = 0x20 ∨ (0x80 ≤ off ∧ off < 0xC0) ∨ 0x20000 ≤ off) :
    (targetAt p off).readWrite = false := by
  rcases h with rfl | rfl | rfl | rfl | ⟨hlo, hhi⟩ | hlo
  · rfl
  · rfl
  · rfl
  · rfl
  · rw [targetAt, if_pos (by omega), show off / 4 = 32 + (off / 4 - 32) by omega,
      registerAt_rk ⟨off / 4 - 32, by omega⟩]
    rfl
  · rcases targetAt_cases p off with ⟨_, _⟩ | ⟨_, _, _⟩ | ⟨_, _, _⟩ | ⟨_, _, _⟩ | ⟨q, e, _⟩ | ⟨_, e⟩
    · omega
    · omega
    · omega
    · omega
    · rw [e]
      rfl
    · rw [e]
      rfl

/-- A store is ignored where no word is kept, CMD apart, whose store issues a command. -/
theorem storeAt_ignored {a : Target} (hcmd : a ≠ .cmd) (h : a.readWrite = false) (s : State) (v : Word) :
    s.storeAt a v = s := by
  cases a with
  | cmd => exact absurd rfl hcmd
  | id | status | errinfo | dstLen | rk | dst | unmapped => rfl
  | keyLen | tpN | tpSkLen | srcLen | key | flow | fk | sk | src => cases h

theorem busWrite_ignored (hcmd : targetAt s.params off ≠ .cmd) (h : (targetAt s.params off).readWrite = false)
    (v : Word) : s.busWrite off v = s := by
  rcases busWrite_cases s off v with e | ⟨_, e⟩
  · exact e
  · exact e.trans (storeAt_ignored hcmd h s v)

/-- Only a write to CMD issues a command (R55, R200). -/
theorem busWrite_untouched (hcmd : targetAt s.params off ≠ .cmd) (v : Word) :
    (s.busWrite off v).status = s.status ∧ (s.busWrite off v).cmd = s.cmd ∧
      (s.busWrite off v).errinfo = s.errinfo := by
  rcases busWrite_cases s off v with e | ⟨_, e⟩ <;> rw [e]
  · exact ⟨rfl, rfl, rfl⟩
  · obtain ⟨_, _, _, _, _, _, _, _, _, hkept⟩ := storeAt_engine s (targetAt s.params off) v
    exact hkept hcmd

/-! ## Writing twice -/

theorem Table.write_write (t : Table) (j : Nat) (v : Word) : (t.write j v).write j v = t.write j v := by
  rw [Table.write, Table.write, putCell_twice]

theorem Memory.writeWord_writeWord (m : Memory) (q : Nat) (v : Word) :
    (m.writeWord q v).writeWord q v = m.writeWord q v := by
  simp only [Memory.writeWord, Memory.writeRange, putRange_twice]

theorem storeAt_storeAt {a : Target} (hcmd : a ≠ .cmd) (s : State) (v : Word) :
    (s.storeAt a v).storeAt a v = s.storeAt a v := by
  cases a with
  | cmd => exact absurd rfl hcmd
  | id | status | errinfo | dstLen | rk | dst | unmapped => rfl
  | keyLen | tpN | tpSkLen | srcLen => rfl
  | key w | flow w => simp [State.storeAt]
  | fk j | sk j => simp only [State.storeAt, Table.write_write]
  | src q => simp only [State.storeAt, Memory.writeWord_writeWord]

theorem busWrite_busWrite (hcmd : targetAt s.params off ≠ .cmd) (v : Word) :
    (s.busWrite off v).busWrite off v = s.busWrite off v := by
  rcases busWrite_cases s off v with e | ⟨hb, e⟩
  · rw [e, e]
  · have hidle : (s.storeAt (targetAt s.params off) v).status.busy = false := by rw [storeAt_status s v hcmd, hb]
    rw [e, busWrite_idle hidle, storeAt_params, storeAt_storeAt hcmd]

/-! ## Byte lanes -/

theorem registerAt_key : ∀ w : Fin 4, registerAt (12 + w) = .key w := by decide

theorem targetAt_key (p : Params) (w : Fin 4) : targetAt p (0x30 + 4 * w) = .key w := by
  rw [targetAt, if_pos (by omega), show (0x30 + 4 * w.val) / 4 = 12 + w.val by omega, registerAt_key]

/-- Key byte 4w + b is bits 8b+7:8b of KEYw (R31). -/
theorem keyByte_eq_extractLsb' (s : State) (w : Fin 4) {b : Nat} (hb : b < 4) :
    s.keyByte (4 * w + b) = s.key[w].extractLsb' (8 * b) 8 := by
  have hw : (4 * w.val + b) / 4 % 4 = w := by omega
  have hlane : (4 * w.val + b) % 4 = b := by omega
  simp only [State.keyByte, hw, hlane, lane_unpack _ hb, Fin.getElem_fin]

/-- Byte 4q + b of a buffer after a write of its word q (R57). -/
theorem read_writeWord_lane (m : Memory) (q : Nat) (v : Word) {b : Nat} (hb : b < 4) :
    (m.writeWord q v).read (4 * q + b) = v.extractLsb' (8 * b) 8 := by
  rw [← lane_readWord _ q hb, readWord_writeWord_same]

/-! ## Refused transactions -/

theorem offsetOf_outside {addr : Nat} (h : addr < s.params.base ∨ s.params.base + 0x30000 ≤ addr) (width : Nat) :
    s.offsetOf addr width = .error .outsideWindow := if_pos h

theorem offsetOf_unsupported {addr width : Nat} (hlo : s.params.base ≤ addr) (hhi : addr < s.params.base + 0x30000)
    (h : width ≠ 32 ∨ (addr - s.params.base) % 4 ≠ 0) :
    s.offsetOf addr width = .error .unsupportedTransaction := by
  rw [State.offsetOf, if_neg (by unfold windowBytes; omega), if_pos h]

/-- A raw line whose address or width has no offset ends the Host's turn with the reason. -/
theorem hostTurn_refused {rest : List HostOp} {addr width : Nat} {v : Word} {r : Refusal}
    (hp : s.hostProg = .raw (.read addr width) :: rest ∨ s.hostProg = .raw (.write addr width v) :: rest)
    (h : s.offsetOf addr width = .error r) : s.hostTurn = .refused r := by
  rcases hp with hp | hp
  · simp only [State.hostTurn, hp, State.lineTransaction, State.transact, h]
  · simp only [State.hostTurn, hp, State.lineTransaction, State.transact, h]

theorem step_host (hm : s.mover = .host) : step s = s.popTurn.hostTurn := by rw [step, hm, State.turn]

end Sys2Proof.Machine

open Sys2Proof Sys2Proof.Machine

/-- Settles O38, by what stands at each offset and what a store there changes. -/
theorem unmappedAndReadOnlyOffsets : Obligations.UnmappedAndReadOnlyOffsets := by
  refine fun s off v h4 hoff => ⟨?_, fun hu => ?_, fun hro => ?_, fun hcmd => ?_⟩
  · obtain ⟨d, hd⟩ := busRead_state s off
    rw [hd]
  · have ht := targetAt_unmapped hoff hu
    refine ⟨busWrite_ignored (by rw [ht]; decide) (by rw [ht]; rfl) v, fun hb => ?_⟩
    rw [busRead_idle hb, ht]
    rfl
  · exact busWrite_ignored (targetAt_ne_cmd s.params h4 (by omega)) (targetAt_not_readWrite s.params hro) v
  · exact busWrite_untouched (targetAt_ne_cmd s.params h4 hcmd) v

/-- Settles O39: a read moves the count of draws only, and a store finds its own word in place. -/
theorem transactionsAreIdempotent : Obligations.TransactionsAreIdempotent := fun s _ v h4 _ =>
  ⟨busRead_after_busRead h4, fun hcmd => busWrite_busWrite (targetAt_ne_cmd s.params h4 hcmd) v⟩

/-- Settles O37: ID, CMD and STATUS are the targets that stay exact while a command is pending. -/
theorem busyWindow : Obligations.BusyWindow := fun _ hb =>
  ⟨busWrite_busy hb, busRead_exact (by decide) (.inr (by decide)), busRead_exact (by decide) (.inr (by decide)),
    busRead_exact (by decide) (.inr (by decide)), fun _ h4 hoff => busRead_pending hb h4 hoff⟩

/-- Settles O41, by the lanes of a key word and of a buffer's word. -/
theorem bytesStandInLittleEndianLanes : Obligations.BytesStandInLittleEndianLanes := by
  refine fun s q b v hidle hb => ⟨fun hq => ?_, fun hlen hq => ⟨?_, ?_, ?_⟩⟩
  · have hkey : (s.busWrite (0x30 + 4 * q) v).key = s.key.set q v := by
      rw [busWrite_idle hidle, targetAt_key s.params ⟨q, hq⟩]
      rfl
    rw [keyByte_eq_extractLsb' _ ⟨q, hq⟩ hb, hkey]
    simp
  · rw [busWrite_idle hidle, targetAt_src _ hlen hq]
    exact read_writeWord_lane s.src q v hb
  · rw [busRead_idle hidle, targetAt_src _ hlen hq]
    exact lane_readWord s.src q hb
  · rw [busRead_idle hidle, targetAt_dst _ hlen hq]
    exact lane_readWord s.dst q hb

/-- Settles O43: the Host's turn takes the reason that the address and the width give. -/
theorem unsupportedTransactionsAreRefused : Obligations.UnsupportedTransactionsAreRefused := by
  intro s rest addr width v hm hp
  rw [step_host hm]
  exact ⟨fun hlo hhi h => hostTurn_refused (s := s.popTurn) hp (offsetOf_unsupported hlo hhi h),
    fun h => hostTurn_refused (s := s.popTurn) hp (offsetOf_outside h width)⟩

end

section
/-! PROOFS. The encoding (30_encoding.md): a command word from its fields and back (O1, O2), the words that are commands and
what the engine makes of any other word (O3), and words written out from the table (O4). -/

namespace Sys2Proof

variable {c : Word}

/-! ## The rows by their fields -/

/-- The OP that a row asks for (30_encoding.md R73). -/
def OpRow.op (row : OpRow) : BitVec 8 := row.pattern.extractLsb' 0 8

/-- The row leaves RIDX to the command's operand (R70, R72). -/
def OpRow.usesRidx (row : OpRow) : Bool := row.mnemonic == "RENC" || row.mnemonic == "RDEC"

/-- The row leaves NOTRIM to the command's form (R70, R72). -/
def OpRow.usesNotrim (row : OpRow) : Bool := row.mnemonic == "MDEC" || row.mnemonic == "TDEC"

theorem OpRow.masked_eq_iff_fits {row : OpRow} (h : row ∈ opTable) :
    c &&& row.mask = row.pattern ↔ Fits c row.op row.usesRidx row.usesNotrim := row_iff c row h

/-- The OP fields of the rows differ (R73). -/
theorem opTable_op_nodup : (opTable.map OpRow.op).Nodup := by decide

theorem opTable_op_le : ∀ row ∈ opTable, row.op.toNat ≤ 0x0D := by decide

theorem opTable_op_surjective : ∀ n : Fin 14, ∃ row ∈ opTable, row.op = BitVec.ofNat 8 n := by decide

theorem opTable_usesRidx_iff : ∀ row ∈ opTable, row.usesRidx = true ↔ row.op = 0x02#8 ∨ row.op = 0x03#8 := by decide

theorem opTable_usesNotrim_iff : ∀ row ∈ opTable, row.usesNotrim = true ↔ row.op = 0x07#8 ∨ row.op = 0x0A#8 := by decide

/-- No two rows match the same word: its OP tells them apart (R73). -/
theorem opTable_match_unique {row row' : OpRow} (h : row ∈ opTable) (h' : row' ∈ opTable)
    (hc : c &&& row.mask = row.pattern) (hc' : c &&& row'.mask = row'.pattern) : row = row' := by
  obtain ⟨_, _, _, hop⟩ := (OpRow.masked_eq_iff_fits h).mp hc
  obtain ⟨_, _, _, hop'⟩ := (OpRow.masked_eq_iff_fits h').mp hc'
  exact List.inj_on_of_nodup_map opTable_op_nodup h h' (hop.symm.trans hop')

/-! ## Decode -/

/-- A word that matches a row is the command that the row builds. -/
theorem decode_eq_build {row : OpRow} (h : row ∈ opTable) (hc : c &&& row.mask = row.pattern) :
    decode c = .ok (row.build c) := by
  obtain ⟨i, hi⟩ := (decode_ok_iff c).mpr ⟨row, h, hc⟩
  obtain ⟨row', h', hc', hbuild⟩ := decode_row hi
  rw [hi, ← hbuild, opTable_match_unique h h' hc hc']

theorem encode_matches_row (i : Instr) : Laws.Encoded.Statement i := by
  cases i with
  | nop => exact Laws.Encoded.nop
  | ksched => exact Laws.Encoded.ksched
  | renc r => exact Laws.Encoded.renc r
  | rdec r => exact Laws.Encoded.rdec r
  | benc => exact Laws.Encoded.benc
  | bdec => exact Laws.Encoded.bdec
  | menc => exact Laws.Encoded.menc
  | mdec notrim => exact Laws.Encoded.mdec notrim
  | tcfg => exact Laws.Encoded.tcfg
  | tenc => exact Laws.Encoded.tenc
  | tdec notrim => exact Laws.Encoded.tdec notrim
  | trimz => exact Laws.Encoded.trimz
  | trimp => exact Laws.Encoded.trimp
  | move => exact Laws.Encoded.move

theorem decode_encode {i : Instr} (h : i.WellFormed) : decode (encode i) = .ok i := by
  obtain ⟨row, hrow, hmatch, hbuild⟩ := encode_matches_row i h
  rw [decode_eq_build hrow (beq_iff_eq.mp hmatch), hbuild]

/-- R74's formula says of the fields what some row asks of them. -/
theorem decode_ok_iff_legal (c : Word) : (∃ i, decode c = .ok i) ↔
    c.extractLsb' 13 19 = 0#19 ∧ (c.extractLsb' 0 8).toNat ≤ 0x0D ∧
      (c.extractLsb' 8 4 = 0#4 ∨ c.extractLsb' 0 8 = 0x02#8 ∨ c.extractLsb' 0 8 = 0x03#8) ∧
      (c.getLsbD 12 = false ∨ c.extractLsb' 0 8 = 0x07#8 ∨ c.extractLsb' 0 8 = 0x0A#8) := by
  rw [decode_ok_iff]
  constructor
  · rintro ⟨row, hrow, hc⟩
    obtain ⟨hreserved, hnotrim, hridx, hop⟩ := (OpRow.masked_eq_iff_fits hrow).mp hc
    rw [hop, ← opTable_usesRidx_iff row hrow, ← opTable_usesNotrim_iff row hrow]
    exact ⟨hreserved, opTable_op_le row hrow, hridx.symm, hnotrim.symm⟩
  · rintro ⟨hreserved, hle, hridx, hnotrim⟩
    obtain ⟨row, hrow, hop⟩ := opTable_op_surjective ⟨(c.extractLsb' 0 8).toNat, by omega⟩
    replace hop : c.extractLsb' 0 8 = row.op := by rw [hop, BitVec.ofNat_toNat, BitVec.setWidth_eq]
    rw [hop, ← opTable_usesRidx_iff row hrow] at hridx
    rw [hop, ← opTable_usesNotrim_iff row hrow] at hnotrim
    exact ⟨row, hrow, (OpRow.masked_eq_iff_fits hrow).mpr ⟨hreserved, hnotrim.symm, hridx.symm, hop⟩⟩

/-- "Matches exactly one row" (R74) is no stronger than matching one. -/
theorem decode_ok_iff_one_row (c : Word) : (∃ i, decode c = .ok i) ↔
    ∃ row ∈ opTable, c &&& row.mask = row.pattern ∧
      ∀ row' ∈ opTable, c &&& row'.mask = row'.pattern → row'.mnemonic = row.mnemonic := by
  rw [decode_ok_iff]
  constructor
  · rintro ⟨row, hrow, hc⟩
    exact ⟨row, hrow, hc, fun row' hrow' hc' => by rw [opTable_match_unique hrow' hrow hc' hc]⟩
  · rintro ⟨row, hrow, hc, _⟩
    exact ⟨row, hrow, hc⟩

/-! ## The word of given fields -/

/-- A bit of a command word, by the field it stands in (R70). -/
theorem getLsbD_commandWord (op : BitVec 8) (ridx : BitVec 4) (notrim : Bool) (n : Nat) :
    (commandWord op.toNat ridx.toNat notrim).getLsbD n =
      if n < 8 then op.getLsbD n else if n < 12 then ridx.getLsbD (n - 8) else decide (12 = n) && notrim := by
  have hflag : (if notrim then 0x1000#32 else 0#32).getLsbD n = (decide (12 = n) && notrim) := by
    rw [show 0x1000#32 = BitVec.twoPow 32 12 by decide]
    cases notrim <;> simp [BitVec.getLsbD_twoPow]
  simp only [commandWord, BitVec.ofNat_toNat, BitVec.getLsbD_or, BitVec.getLsbD_shiftLeft, BitVec.getLsbD_setWidth, hflag]
  by_cases h8 : n < 8
  · simp [h8, show n < 32 by omega, show 12 ≠ n by omega]
  by_cases h12 : n < 12
  · simp [h8, h12, show n < 32 by omega, show n - 8 < 32 by omega, show 12 ≠ n by omega,
      BitVec.getLsbD_of_ge op n (by omega)]
  · simp [h8, h12, BitVec.getLsbD_of_ge op n (by omega), BitVec.getLsbD_of_ge ridx (n - 8) (by omega)]

/-- A word whose reserved bits are 0 is the word of its own fields (R70). -/
theorem eq_commandWord (h : c.extractLsb' 13 19 = 0#19) :
    c = commandWord (c.extractLsb' 0 8).toNat (c.extractLsb' 8 4).toNat (notrimField c) := by
  refine BitVec.eq_of_getLsbD_eq fun n hn => ?_
  rw [getLsbD_commandWord]
  have hreserved : 13 ≤ n → c.getLsbD n = false := fun hge => by
    have := congrArg (fun x => x.getLsbD (n - 13)) h
    simpa [show n - 13 < 19 by omega, show 13 + (n - 13) = n by omega] using this
  by_cases h8 : n < 8
  · simp [h8]
  by_cases h12 : n < 12
  · simp [h8, h12, show n - 8 < 4 by omega, show 8 + (n - 8) = n by omega]
  by_cases h13 : 12 = n
  · simp [← h13, notrimField]
  · simp [h8, h12, h13, hreserved (by omega)]

/-- A word that fits a row is the word of the row's OP and of the fields that the row leaves open (R70, R74). -/
theorem Fits.eq_word {op : BitVec 8} {usesRidx usesNotrim : Bool} (h : Fits c op usesRidx usesNotrim) :
    c = commandWord op.toNat (if usesRidx then ridxField c else 0) (usesNotrim && notrimField c) := by
  obtain ⟨hreserved, hnotrim, hridx, hop⟩ := h
  have hr : (c.extractLsb' 8 4).toNat = if usesRidx then ridxField c else 0 := by
    rcases hridx with rfl | h0
    · exact (ridxField_eq c).symm
    · simp [ridxField_eq, h0]
  have hn : notrimField c = (usesNotrim && notrimField c) := by
    rcases hnotrim with rfl | h0
    · rfl
    · rw [notrimField, h0, Bool.and_false]
  rw [← hr, ← hn, ← hop]
  exact eq_commandWord hreserved

/-- What a row builds from a word that it matches is well formed, and that word is its word. -/
theorem encode_build {row : OpRow} (h : row ∈ opTable) (hc : c &&& row.mask = row.pattern) :
    (row.build c).WellFormed ∧ encode (row.build c) = c := by
  have hword := ((OpRow.masked_eq_iff_fits h).mp hc).eq_word
  have hridx : decide (ridxField c < rounds) = true := decide_eq_true (ridxField_lt c)
  simp only [opTable, List.mem_cons, List.not_mem_nil, or_false] at h
  rcases h with rfl | rfl | rfl | rfl | rfl | rfl | rfl | rfl | rfl | rfl | rfl | rfl | rfl | rfl
  all_goals refine ⟨?_, hword.symm⟩
  exacts [rfl, rfl, hridx, hridx, rfl, rfl, rfl, rfl, rfl, rfl, rfl, rfl, rfl, rfl]

theorem encode_of_decode {i : Instr} (h : decode c = .ok i) : i.WellFormed ∧ encode i = c := by
  obtain ⟨row, hrow, hc, rfl⟩ := decode_row h
  exact encode_build hrow hc

end Sys2Proof

namespace Sys2Proof.Machine

/-- A word that is no command performs nothing: the complete step raises IllegalCommand with it (R74, R204). -/
theorem completeStep_illegal {s : State} (h : ¬ ∃ i, decode s.cmd = .ok i) :
    s.completeStep = .next (s.raise ⟨.illegalCommand, s.cmd⟩) := by
  rw [State.completeStep]
  cases hd : decode s.cmd with
  | ok i => exact absurd ⟨i, hd⟩ h
  | error _ => rfl

end Sys2Proof.Machine

open Sys2Proof Sys2Proof.Machine

/-- Settles O1: the word of a command matches a row that reads the command back, and no other row matches it. -/
theorem decodeUndoesEncode : Obligations.DecodeUndoesEncode := fun _ => decode_encode

/-- Settles O2: a word that fits a row is made of the row's OP and of the fields that the row's command carries. -/
theorem encodeUndoesDecode : Obligations.EncodeUndoesDecode := fun _ _ => encode_of_decode

/-- Settles O3, by what the rows ask of the fields and by the raise that ends the step of any other word. -/
theorem legalWordsDecodeAndOthersRaiseIllegalCommand : Obligations.LegalWordsDecodeAndOthersRaiseIllegalCommand := by
  refine fun c => ⟨decode_ok_iff_legal c, decode_ok_iff_one_row c, fun s hs hno => ?_⟩
  subst hs
  exact ⟨_, completeStep_illegal hno, rfl⟩

/-- Settles O4: the nine words are those of their commands, and the four others are read off the table. -/
theorem tableWordsDecode : Obligations.TableWordsDecode := by
  have h (i : Instr) (hi : i.WellFormed) : decode (encode i) = .ok i := decode_encode hi
  exact ⟨h .nop rfl, h .ksched rfl, h (.renc 7) rfl, h (.rdec 15) rfl, h .menc rfl, h (.mdec true) rfl, h .tcfg rfl,
    h (.tdec true) rfl, h .move rfl, by decide, by decide, by decide, by decide⟩

end

section
/-! PROOFS. The Host's side of 30_encoding.md: each line of a host program is one transaction (O45), and DO is the issue of a
command, its complete step and the read of STATUS that ends the poll (O44). -/

namespace Sys2Proof.Machine

variable {s t : State} {i : Instr} {off : Nat} {v : Word} {rest : List HostOp}

/-! ## The lines of a host program -/

theorem transact_write (h4 : off % 4 = 0) (hoff : off < 0x30000) :
    s.transact (.write (s.params.base + off) 32 v) = .next (s.busWrite off v) := by
  simp only [State.transact, offsetOf_ok s h4 hoff]

theorem transact_read (h4 : off % 4 = 0) (hoff : off < 0x30000) :
    s.transact (.read (s.params.base + off) 32) = .next { (s.busRead off).2 with hostVar := (s.busRead off).1 } := by
  simp only [State.transact, offsetOf_ok s h4 hoff]

theorem hostTurn_wr (hp : s.hostProg = .wr off v :: rest) (h4 : off % 4 = 0) (hoff : off < 0x30000) :
    s.hostTurn = .next { s.busWrite off v with hostProg := rest } := by
  simp only [State.hostTurn, hp, State.lineTransaction, transact_write h4 hoff, State.afterLine]

theorem hostTurn_rd (hp : s.hostProg = .rd off :: rest) (h4 : off % 4 = 0) (hoff : off < 0x30000) :
    s.hostTurn = .next { (s.busRead off).2 with hostProg := rest, hostVar := (s.busRead off).1 } := by
  simp only [State.hostTurn, hp, State.lineTransaction, transact_read h4 hoff, State.afterLine]

/-- WAIT goes to its own line again while the STATUS it read has BUSY = 1 (R77). -/
theorem hostTurn_wait (hp : s.hostProg = .wait :: rest) :
    s.hostTurn = .next { s with
      hostProg := if s.status.busy then .wait :: rest else rest
      hostVar := s.status.toWord } := by
  simp only [State.hostTurn, hp, State.lineTransaction, transact_read (s := s) (off := 0x008) (by decide) (by decide),
    State.afterLine, busRead_status, toWord_busy]
  cases s.status.busy <;> simp

theorem hostTurn_check (hp : s.hostProg = .check off v :: rest) (h4 : off % 4 = 0) (hoff : off < 0x30000) :
    s.hostTurn = if (s.busRead off).1 = v then
      .next { (s.busRead off).2 with hostProg := rest, hostVar := v } else .fault .assertFailed := by
  simp only [State.hostTurn, hp, State.lineTransaction, transact_read h4 hoff, State.afterLine]
  split
  · rename_i hv
    rw [hv]
  · rfl

/-! ## Steps without a schedule -/

theorem popTurn_of_no_schedule (h : s.sched = []) : s.popTurn = s := by
  rw [State.popTurn, h, List.tail_nil, ← h]

theorem step_idle (h : s.sched = []) (hb : s.status.busy = false) : step s = s.hostTurn := by
  rw [step_host (by simp [State.mover, h, hb]), popTurn_of_no_schedule h]

/-- A pending command completes at the next step (R236; log 2). -/
theorem step_pending (h : s.sched = []) (hb : s.status.busy = true) (hi : decode s.cmd = .ok i) : step s = exec i s := by
  simp [step, State.mover, h, hb, State.turn, popTurn_of_no_schedule, State.engineTurn, State.completeStep, hi]

/-- A command ends with BUSY = 0 and leaves the Host's program and the schedule alone (R201). -/
theorem exec_completes (h : exec i s = .next t) :
    t.status.busy = false ∧ t.sched = s.sched ∧ t.hostProg = s.hostProg := by
  rcases exec_cases h with ⟨r, hr, rfl⟩ | ⟨x, rfl⟩
  · obtain ⟨_, _, _, _, _, _, hsched, hprog, _⟩ := hr.keeps
    exact ⟨rfl, hsched, hprog⟩
  · exact ⟨rfl, rfl, rfl⟩

theorem run_succ (h : step s = .next t) (k : Nat) : core.run (k + 1) s = core.run k t := by
  have hcore : core.step s = .next t := h
  simp only [Host.Core.run, hcore]

end Sys2Proof.Machine

open Sys2Proof Sys2Proof.Machine

/-- Settles O45: the Host's turn is the transaction of its next line at the line's own offset. -/
theorem hostLinesDoTheirTransaction : Obligations.HostLinesDoTheirTransaction := by
  intro s off v rest hm h4 hoff
  rw [step_host hm]
  exact ⟨fun hp => hostTurn_wr (s := s.popTurn) hp h4 hoff, fun hp => hostTurn_rd (s := s.popTurn) hp h4 hoff,
    fun hp => hostTurn_wait (s := s.popTurn) hp, fun hp => hostTurn_check (s := s.popTurn) hp h4 hoff⟩

/-- Settles O44: the three steps are the turn of the line WR, the pending command's exec and the turn of the line WAIT. -/
theorem doRunsTheCommand : Obligations.DoRunsTheCommand := by
  intro s t i rest hi hb hsched hp hexec
  obtain ⟨hidle, hsched', hp'⟩ := exec_completes hexec
  have hissue : step s = .next { s.issue (encode i) with hostProg := .wait :: rest } := by
    rw [step_idle hsched hb, hostTurn_wr hp (by decide) (by decide), busWrite_idle hb]
    rfl
  have hpending := step_pending (s := { s.issue (encode i) with hostProg := .wait :: rest }) hsched rfl (decode_encode hi)
  have hpoll : step t = .next { t with hostProg := rest, hostVar := t.status.toWord } := by
    rw [step_idle (hsched'.trans hsched) hidle, hostTurn_wait hp', hidle]
    rfl
  calc core.run 3 s = core.run 2 _ := run_succ hissue 2
    _ = core.run 1 t := run_succ (hpending.trans hexec) 1
    _ = core.run 0 _ := run_succ hpoll 0
    _ = .next { t with hostProg := rest, hostVar := t.status.toWord } := rfl

end

section
/-! PROOFS. The key schedule (40_key_schedule.md): what KSCHED derives (O9) and rejects (O21), and the 16 rounds of BENC and
BDEC with it, in packed words (O11). -/

namespace Sys2Proof.Machine

variable {s : State}

/-! ## Completions as the claims state them -/

theorem complete_eq_afterSuccess (s : State) : s.complete = s.afterSuccess := rfl

theorem raise_eq_afterError (s : State) (e : ErrorKind) (info : Word) : s.raise ⟨e, info⟩ = s.afterError e.code info := rfl

/-! ## The rule of KSCHED -/

theorem exec_ksched (s : State) : exec .ksched s = .next (s.finish s.kschedRule) := rfl

theorem kschedRule_pass (h : s.keyLen = 16#32) :
    s.kschedRule = .ok { s with rk := s.schedule, status := s.status.withKeySchedule } := if_pos h

theorem kschedRule_stop (h : s.keyLen ≠ 16#32) : s.kschedRule = fails .invalidKeyLength s.keyLen := if_neg h

/-! ## The readings of the rotation, in packed words (R101, R102) -/

/-- A shift by 0 positions leaves the key, so group 0 of the schedule is no case of its own. -/
theorem rotateKey_zero (mode : KschedRot) (k : Flow) : rotateKey mode k 0 = k := by
  cases mode with
  | bytePosRight => rfl
  | bytePosLeft => rfl
  | bitPerByteRight => simp [rotateKey]

/-- A bit of a packed flow whose lane `i` is lane `p i` of a word. -/
theorem getLsbD_pack_lanes (w : Word) (p : Nat → Nat) {n : Nat} (hn : n < 32) (hp : p (n / 8) < 4) :
    (pack (ofLanes fun i => lane (unpack w) (p i))).getLsbD n = w.getLsbD (8 * p (n / 8) + n % 8) := by
  rw [getLsbD_pack, if_pos hn, lane_ofLanes _ _ (by omega), getLsbD_lane_unpack _ _ _ hp]
  simp [Nat.mod_lt]

/-- "A right shift of the byte array is a left rotation of the little-endian packed word" (R102). -/
theorem pack_rotateKey_bytePosRight (w : Word) {g : Nat} (hg : g < 4) :
    pack (rotateKey .bytePosRight (unpack w) g) = w.rotateLeft (8 * g) := by
  apply BitVec.eq_of_getLsbD_eq
  intro n hn
  have hmod : 8 * g % 32 = 8 * g := Nat.mod_eq_of_lt (by omega)
  rw [rotateKey, getLsbD_pack_lanes w _ hn (Nat.mod_lt _ (by decide)), BitVec.getLsbD_rotateLeft, hmod]
  by_cases hwrap : n < 8 * g
  · rw [show 8 * ((n / 8 + 4 - g) % 4) + n % 8 = 32 - 8 * g + n by omega]
    simp [hwrap]
  · rw [show 8 * ((n / 8 + 4 - g) % 4) + n % 8 = n - 8 * g by omega]
    simp [hwrap, hn]

theorem pack_rotateKey_bytePosLeft (w : Word) {g : Nat} (hg : g < 4) :
    pack (rotateKey .bytePosLeft (unpack w) g) = w.rotateRight (8 * g) := by
  apply BitVec.eq_of_getLsbD_eq
  intro n hn
  have hmod : 8 * g % 32 = 8 * g := Nat.mod_eq_of_lt (by omega)
  rw [rotateKey, getLsbD_pack_lanes w _ hn (Nat.mod_lt _ (by decide)), BitVec.getLsbD_rotateRight, hmod]
  by_cases hwrap : n < 32 - 8 * g
  · rw [show 8 * ((n / 8 + g) % 4) + n % 8 = 8 * g + n by omega]
    simp [hwrap]
  · rw [show 8 * ((n / 8 + g) % 4) + n % 8 = n - (32 - 8 * g) by omega]
    simp [hwrap, hn]

theorem pack_rotateKey_bitPerByteRight (w : Word) {g : Nat} (hg : g < 4) :
    pack (rotateKey .bitPerByteRight (unpack w) g) =
      (w.extractLsb' 24 8).rotateRight g ++ (w.extractLsb' 16 8).rotateRight g ++
        (w.extractLsb' 8 8).rotateRight g ++ (w.extractLsb' 0 8).rotateRight g := by
  simp only [BitVec.rotateRight_def, Nat.mod_eq_of_lt (show g < 8 by omega)]
  rfl

/-! ## The schedule -/

/-- Slice `j` of the key is the bytes of KEYj (R31, R100). -/
theorem keySlice_eq_unpack (s : State) (j : Fin 4) : s.keySlice j = unpack s.key[j] := by
  apply flow_ext
  · exact keyByte_eq_extractLsb' s j (b := 0) (by decide)
  · exact keyByte_eq_extractLsb' s j (b := 1) (by decide)
  · exact keyByte_eq_extractLsb' s j (b := 2) (by decide)
  · exact keyByte_eq_extractLsb' s j (b := 3) (by decide)

/-- Round key 4g + j is KEYj, its bytes rotated by g (R100). -/
theorem schedule_getElem (s : State) (g j : Fin 4) :
    s.schedule[4 * g.val + j.val] = pack (rotateKey s.params.rot (unpack s.key[j]) g) := by
  have hdiv : (4 * g.val + j.val) / 4 = g := by omega
  have hmod : (4 * g.val + j.val) % 4 = j := by omega
  rw [State.schedule, Vector.getElem_ofFn, State.scheduledKey, hdiv, hmod, keySlice_eq_unpack]
  split
  · rename_i hg
    rw [hg, rotateKey_zero]
  · rfl

/-! ## Rounds in packed words -/

theorem exec_benc (h : s.status.rkValid = true) :
    exec .benc s = .next (s.withFlow (encBlock s.roundKey s.flowBlock)).complete := by
  rw [exec, execBenc, needKeySchedule_pass _ h, finish_ok]

theorem exec_bdec (h : s.status.rkValid = true) :
    exec .bdec s = .next (s.withFlow (decBlock s.roundKey s.flowBlock)).complete := by
  rw [exec, execBdec, needKeySchedule_pass _ h, finish_ok]

theorem packBlock_flowBlock (s : State) : packBlock s.flowBlock = s.flow := by
  apply Vector.ext
  intro i hi
  match i, hi with
  | 0, _ => exact pack_unpack _
  | 1, _ => exact pack_unpack _
  | 2, _ => exact pack_unpack _
  | 3, _ => exact pack_unpack _

theorem pack_roundKey (s : State) (r : Fin 16) : pack (s.roundKey r) = s.rk[r] := by
  simp [State.roundKey, Nat.mod_eq_of_lt r.isLt]

theorem packBlock_encRound (b : Block) (k : Flow) :
    packBlock (encRound b k) = packedEncRound (packBlock b) (pack k) := by
  simp [encRound, packBlock, packedEncRound, pack_xorFlow]

theorem packBlock_decRound (b : Block) (k : Flow) :
    packBlock (decRound b k) = packedDecRound (packBlock b) (pack k) := by
  simp [decRound, packBlock, packedDecRound, pack_xorFlow]

/-- Rounds that agree one by one in packed words agree in every order of the round keys (R103). -/
theorem packBlock_foldl_rounds {round : Block → Flow → Block} {packed : Vector Word 4 → Word → Vector Word 4}
    (hround : ∀ b k, packBlock (round b k) = packed (packBlock b) (pack k)) (s : State) (rs : List (Fin 16)) (b : Block) :
    packBlock ((rs.map Fin.val).foldl (fun f r => round f (s.roundKey r)) b) =
      rs.foldl (fun f r => packed f s.rk[r]) (packBlock b) := by
  induction rs generalizing b with
  | nil => rfl
  | cons r rs ih => simp only [List.map_cons, List.foldl_cons, ih, hround, pack_roundKey]

theorem packBlock_encBlock (s : State) (b : Block) :
    packBlock (encBlock s.roundKey b) = (List.finRange 16).foldl (fun f r => packedEncRound f s.rk[r]) (packBlock b) := by
  rw [encBlock, ← List.map_coe_finRange_eq_range]
  exact packBlock_foldl_rounds packBlock_encRound s _ b

theorem packBlock_decBlock (s : State) (b : Block) :
    packBlock (decBlock s.roundKey b) =
      (List.finRange 16).reverse.foldl (fun f r => packedDecRound f s.rk[r]) (packBlock b) := by
  rw [decBlock, ← List.map_coe_finRange_eq_range, ← List.map_reverse]
  exact packBlock_foldl_rounds packBlock_decRound s _ b

end Sys2Proof.Machine

open Sys2Proof Sys2Proof.Machine

/-- Settles O9: KSCHED stores the schedule, and each reading of its rotation is a rotation of packed words. -/
theorem kschedDerivesTheSchedule : Obligations.KschedDerivesTheSchedule := by
  intro s hlen
  refine ⟨s.schedule, s.status.errcode :: s.history, ?_, fun g j hg hj => ?_⟩
  · rw [exec_ksched, kschedRule_pass hlen, finish_ok]
    rfl
  · rw [schedule_getElem s ⟨g, hg⟩ ⟨j, hj⟩]
    cases s.params.rot with
    | bytePosRight => exact pack_rotateKey_bytePosRight _ hg
    | bytePosLeft => exact pack_rotateKey_bytePosLeft _ hg
    | bitPerByteRight => exact pack_rotateKey_bitPerByteRight _ hg

/-- Settles O11: each round is its packed form, so the 16 rounds are too, in either order. -/
theorem bencAndBdecDoSixteenRounds : Obligations.BencAndBdecDoSixteenRounds := by
  intro s h
  rw [exec_benc h, exec_bdec h, complete_eq_afterSuccess, complete_eq_afterSuccess, State.withFlow, State.withFlow,
    packBlock_encBlock, packBlock_decBlock, packBlock_flowBlock]
  exact ⟨rfl, rfl⟩

/-- Settles O21: the length check of KSCHED's rule raises in the state at issue. -/
theorem kschedRejectsOtherKeyLengths : Obligations.KschedRejectsOtherKeyLengths := by
  intro s hlen
  rw [exec_ksched, kschedRule_stop hlen, finish_fails, raise_eq_afterError]
  rfl

end

section
/-! PROOFS. The Feistel round engine (41_feistel_round.md): one round in packed words (O10), decryption undoes encryption
(O47), the affine form of 16 rounds (O48), lanes do not mix (O49), and the error of missing key material (O20). -/

namespace Sys2Proof.Machine

variable {s : State}

/-! ## Commands without their key material (R204) -/

theorem finish_without_keySchedule (h : s.status.rkValid = false) (go : Rule) :
    s.finish (s.needKeySchedule go) = s.afterError 4#4 0#32 := by
  rw [needKeySchedule_stop go h, finish_fails, raise_eq_afterError, ErrorKind.code]

theorem finish_without_permutationKeys (h : s.status.tpValid = false) (go : Rule) :
    s.finish (s.needPermutationKeys go) = s.afterError 5#4 0#32 := by
  rw [needPermutationKeys_stop go h, finish_fails, raise_eq_afterError, ErrorKind.code]

/-! ## One round (R112, R113) -/

theorem exec_renc (h : s.status.rkValid = true) (r : Nat) :
    exec (.renc r) s = .next (s.withFlow (encRound s.flowBlock (s.roundKey r))).complete := by
  rw [exec, execRenc, needKeySchedule_pass _ h, finish_ok]

theorem exec_rdec (h : s.status.rkValid = true) (r : Nat) :
    exec (.rdec r) s = .next (s.withFlow (decRound s.flowBlock (s.roundKey r))).complete := by
  rw [exec, execRdec, needKeySchedule_pass _ h, finish_ok]

/-! ## The inverse law (R116) -/

/-- The flow that a reverse round reads in fourth place is the one its round read in first place, so both add the same t. -/
theorem decRound_encRound (f : Block) (k : Flow) : decRound (encRound f k) k = f := by
  simp only [decRound, encRound, xorFlow_cancel]

/-- The reverse rounds undo the rounds from the last one back. -/
theorem foldl_decRound_reverse_foldl_encRound (rk : Nat → Flow) (rs : List Nat) (b : Block) :
    rs.reverse.foldl (fun f r => decRound f (rk r)) (rs.foldl (fun f r => encRound f (rk r)) b) = b := by
  induction rs generalizing b with
  | nil => rfl
  | cons r rs ih =>
    rw [List.foldl_cons, List.reverse_cons, List.foldl_append, ih, List.foldl_cons, List.foldl_nil, decRound_encRound]

theorem decBlock_encBlock (rk : Nat → Flow) (b : Block) : decBlock rk (encBlock rk b) = b :=
  foldl_decRound_reverse_foldl_encRound rk (List.range rounds) b

theorem flowBlock_withFlow_complete (s : State) (b : Block) : (s.withFlow b).complete.flowBlock = b := by
  simp [State.flowBlock, State.withFlow, packBlock]

theorem roundKey_withFlow_complete (s : State) (b : Block) : (s.withFlow b).complete.roundKey = s.roundKey := rfl

/-! ## `^` on flows and blocks -/

theorem xorFlow_left_comm (a b c : Flow) : xorFlow a (xorFlow b c) = xorFlow b (xorFlow a c) := by
  rw [← xorFlow_assoc, xorFlow_comm a b, xorFlow_assoc]

theorem xorFlow_cancel_left (a b : Flow) : xorFlow a (xorFlow a b) = b := by
  rw [xorFlow_comm a b, xorFlow_comm, xorFlow_cancel]

theorem xorFlow_cancel_right (a b : Flow) : xorFlow a (xorFlow b b) = a := by rw [← xorFlow_assoc, xorFlow_cancel]

theorem xorBlock_cancel (a b : Block) : xorBlock (xorBlock a b) b = a := by
  simp only [xorBlock, xorFlow_cancel]

theorem xorBlock_zeroBlock (b : Block) : xorBlock b zeroBlock = b := by
  simp [xorBlock, zeroBlock, partition, xorFlow, ofLanes]

/-! ## Λ (R118) -/

theorem lambdaMap_xorBlock (a b : Block) : lambdaMap (xorBlock a b) = xorBlock (lambdaMap a) (lambdaMap b) := by
  simp only [lambdaMap, xorBlock, xorFlow_assoc, xorFlow_left_comm]

theorem lambdaInv_lambdaMap (b : Block) : lambdaInv (lambdaMap b) = b := by
  simp only [lambdaInv, lambdaMap, xorFlow_comm b.f1, xorFlow_cancel]

theorem lambdaMap_lambdaInv (b : Block) : lambdaMap (lambdaInv b) = b := by
  simp only [lambdaInv, lambdaMap, xorFlow_comm b.f4, xorFlow_cancel]

/-- Written out in the flows of `b`, the four flows of Λ⁵ cancel to those of `b`. -/
theorem lambdaMap_isPeriodicPt (b : Block) : Function.IsPeriodicPt lambdaMap 5 b := by
  show lambdaMap (lambdaMap (lambdaMap (lambdaMap (lambdaMap b)))) = b
  simp only [lambdaMap, xorFlow_comm, xorFlow_left_comm, xorFlow_cancel_left, xorFlow_cancel_right]

theorem lambdaMap_iterate_rounds (b : Block) : lambdaMap^[rounds] b = lambdaMap b :=
  ((lambdaMap_isPeriodicPt b).iterate_mod_apply rounds).symm

/-! ## The affine form of rounds (R118) -/

/-- A round is Λ and an addition, so it is Λ on one of two blocks that are added. -/
theorem encRound_xorBlock (a b : Block) (k : Flow) :
    encRound (xorBlock a b) k = xorBlock (lambdaMap a) (encRound b k) := by
  simp only [encRound, lambdaMap, xorBlock, xorFlow_assoc, xorFlow_left_comm]

/-- n rounds are Λⁿ and the addition of what they make of the zero block. -/
theorem foldl_encRound_eq_xorBlock (rk : Nat → Flow) (rs : List Nat) (b : Block) :
    rs.foldl (fun f r => encRound f (rk r)) b =
      xorBlock (lambdaMap^[rs.length] b) (rs.foldl (fun f r => encRound f (rk r)) zeroBlock) := by
  induction rs using List.reverseRecOn with
  | nil => exact (xorBlock_zeroBlock b).symm
  | append_singleton rs r ih =>
    simp only [List.foldl_append, List.foldl_cons, List.foldl_nil, List.length_append, List.length_singleton,
      Function.iterate_succ_apply']
    rw [ih, encRound_xorBlock]

theorem encBlock_eq_xorBlock (rk : Nat → Flow) (b : Block) :
    encBlock rk b = xorBlock (lambdaMap b) (encBlock rk zeroBlock) := by
  have h := foldl_encRound_eq_xorBlock rk (List.range rounds) b
  rwa [List.length_range, lambdaMap_iterate_rounds] at h

/-- The block that Λ⁻¹ gives is the one whose encryption is `c`, and decryption undoes encryption. -/
theorem decBlock_eq_lambdaInv (rk : Nat → Flow) (c : Block) :
    decBlock rk c = lambdaInv (xorBlock c (encBlock rk zeroBlock)) := by
  have hc : encBlock rk (lambdaInv (xorBlock c (encBlock rk zeroBlock))) = c := by
    rw [encBlock_eq_xorBlock, lambdaMap_lambdaInv, xorBlock_cancel]
  calc decBlock rk c = decBlock rk (encBlock rk (lambdaInv (xorBlock c (encBlock rk zeroBlock)))) := by rw [hc]
    _ = lambdaInv (xorBlock c (encBlock rk zeroBlock)) := decBlock_encBlock rk _

/-! ## Lanes (R119) -/

/-- Two blocks agree in lane `i` of every flow. -/
def SameLane (i : Nat) (b b' : Block) : Prop :=
  lane b.f1 i = lane b'.f1 i ∧ lane b.f2 i = lane b'.f2 i ∧ lane b.f3 i = lane b'.f3 i ∧ lane b.f4 i = lane b'.f4 i

variable {i : Nat} {b b' : Block} {k k' : Flow}

theorem encRound_sameLane (hi : i < 4) (hb : SameLane i b b') (hk : lane k i = lane k' i) :
    SameLane i (encRound b k) (encRound b' k') := by
  obtain ⟨h1, h2, h3, h4⟩ := hb
  simp only [SameLane, encRound, lane_xorFlow _ _ i hi, h1, h2, h3, h4, hk, and_self]

theorem decRound_sameLane (hi : i < 4) (hb : SameLane i b b') (hk : lane k i = lane k' i) :
    SameLane i (decRound b k) (decRound b' k') := by
  obtain ⟨h1, h2, h3, h4⟩ := hb
  simp only [SameLane, decRound, lane_xorFlow _ _ i hi, h1, h2, h3, h4, hk, and_self]

/-- Rounds that act on each lane alone act so in every order of the round keys. -/
theorem foldl_rounds_sameLane {round : Block → Flow → Block}
    (hround : ∀ {b b' k k'}, SameLane i b b' → lane k i = lane k' i → SameLane i (round b k) (round b' k'))
    {rk rk' : Nat → Flow} {rs : List Nat} (hrk : ∀ r ∈ rs, lane (rk r) i = lane (rk' r) i) (hb : SameLane i b b') :
    SameLane i (rs.foldl (fun f r => round f (rk r)) b) (rs.foldl (fun f r => round f (rk' r)) b') := by
  induction rs generalizing b b' with
  | nil => exact hb
  | cons r rs ih =>
    obtain ⟨hr, hrs⟩ := List.forall_mem_cons.mp hrk
    exact ih hrs (hround hb hr)

end Sys2Proof.Machine

open Sys2Proof Sys2Proof.Machine

/-- Settles O10: the round of the packed words is the packed round. -/
theorem rencAndRdecDoOneRound : Obligations.RencAndRdecDoOneRound := by
  intro s r hr h
  have hk : pack (s.roundKey r) = s.rk[r] := pack_roundKey s ⟨r, hr⟩
  rw [exec_renc h, exec_rdec h, complete_eq_afterSuccess, complete_eq_afterSuccess, State.withFlow, State.withFlow,
    packBlock_encRound, packBlock_decRound, packBlock_flowBlock, hk]
  exact ⟨rfl, rfl⟩

/-- Settles O47: BDEC reads the block and the round keys that BENC left, and undoes BENC's rounds from the last one back. -/
theorem decryptionUndoesEncryption : Obligations.DecryptionUndoesEncryption := by
  refine ⟨decRound_encRound, fun s t u h ht hu => ?_⟩
  rw [exec_benc h, Host.Outcome.next.injEq] at ht
  subst ht
  rw [exec_bdec (s := (s.withFlow _).complete) h, flowBlock_withFlow_complete, roundKey_withFlow_complete, decBlock_encBlock,
    Host.Outcome.next.injEq] at hu
  subst hu
  exact packBlock_flowBlock s

/-- Settles O48: 16 rounds are Λ¹⁶ = Λ and an addition, and the reverse rounds undo them. -/
theorem blockCipherIsAffine : Obligations.BlockCipherIsAffine :=
  ⟨fun b => ⟨lambdaMap_isPeriodicPt b, lambdaInv_lambdaMap b⟩, lambdaMap_xorBlock,
    fun rk b => ⟨encBlock_eq_xorBlock rk b, decBlock_eq_lambdaInv rk b⟩⟩

/-- Settles O49: each round acts on each lane alone, and both commands are rounds with the round keys 0 to 15. -/
theorem lanesDoNotMix : Obligations.LanesDoNotMix := by
  intro rk rk' b b' i hi hrk hb g hg
  rcases List.mem_pair.mp hg with rfl | rfl
  · exact foldl_rounds_sameLane (encRound_sameLane hi) (fun r hr => hrk r (List.mem_range.mp hr)) hb
  · exact foldl_rounds_sameLane (decRound_sameLane hi)
      (fun r hr => hrk r (List.mem_range.mp (List.mem_reverse.mp hr))) hb

/-- Settles O20: the check for key material is the first of each of these rules. -/
theorem missingKeyMaterialIsReportedFirst : Obligations.MissingKeyMaterialIsReportedFirst := by
  refine fun s => ⟨fun h r nt => ?_, fun h nt => ?_⟩
  · have hstop (go : Rule) :=
      congrArg (Host.Outcome.next (φ := Fault) (ρ := Refusal)) (finish_without_keySchedule h go)
    exact ⟨hstop _, hstop _, hstop _, hstop _, hstop _, hstop _⟩
  · have hstop (go : Rule) :=
      congrArg (Host.Outcome.next (φ := Fault) (ρ := Refusal)) (finish_without_permutationKeys h go)
    exact ⟨hstop _, hstop _⟩

end

section
/-! PROOFS. The block cipher (42_block_cipher.md): the results of MENC, MDEC and TRIMZ byte by byte (O12 to O14), their
lengths (O50), the errors of messages that are too long or ragged (O23, O24), MENC, MOVE and MDEC in a row (O51), and the
trims as commands of their own (O55). -/

namespace Sys2Proof.Machine

variable {s : State}

/-! ## Commands that pass their checks -/

theorem exec_menc (hrk : s.status.rkValid = true) (hL : s.srcLen.toNat ≤ s.params.maxlen) :
    exec .menc s = .next (s.writeResult s.encryptedMessage).complete := by
  rw [exec, execMenc, needKeySchedule_pass _ hrk, needSrcFits_pass _ hL, finish_ok]

theorem exec_mdec (hrk : s.status.rkValid = true) (hL : s.srcLen.toNat ≤ s.params.maxlen)
    (h16 : s.srcLen.toNat % 16 = 0) (nt : Bool) :
    exec (.mdec nt) s = .next (s.writeResult (s.decryptedMessage.take (s.mdecLen nt))).complete := by
  rw [exec, execMdec, needKeySchedule_pass _ hrk, needSrcFits_pass _ hL, needWholeBlocks_pass _ h16, finish_ok]

theorem exec_trimz (hL : s.srcLen.toNat ≤ s.params.maxlen) (h16 : s.srcLen.toNat % 16 = 0) :
    exec .trimz s =
      .next (s.writeResult (s.src.readRange 0 (trimzLen (s.src.readRange 0 s.srcBytes) s.srcBytes))).complete := by
  rw [exec, execTrimz, needSrcFits_pass _ hL, needWholeBlocks_pass _ h16, finish_ok]

theorem exec_tdec (htp : s.status.tpValid = true) (hL : s.srcLen.toNat ≤ s.params.maxlen)
    (hN : s.srcLen.toNat % s.ni.toNat = 0) (nt : Bool) :
    exec (.tdec nt) s = .next (s.writeResult (if nt then s.untransposed else stripPads s.untransposed)).complete := by
  rw [exec, execTdec, needPermutationKeys_pass _ htp, needSrcFits_pass _ hL, needWholeRows_pass _ hN, finish_ok]

theorem exec_trimp (hL : s.srcLen.toNat ≤ s.params.maxlen) :
    exec .trimp s = .next (s.writeResult (stripPads (s.src.readRange 0 s.srcBytes))).complete := by
  rw [exec, execTrimp, needSrcFits_pass _ hL, finish_ok]

/-! ## Messages that fail their checks -/

theorem finish_overlong (h : s.params.maxlen < s.srcLen.toNat) (go : Rule) :
    s.finish (s.needSrcFits go) = s.afterError 8#4 s.srcLen := by
  rw [needSrcFits_stop go h, finish_fails, raise_eq_afterError, ErrorKind.code]

theorem finish_raggedBlocks (hL : s.srcLen.toNat ≤ s.params.maxlen) (h : s.srcLen.toNat % 16 ≠ 0) (go : Rule) :
    s.finish (s.needSrcFits (s.needWholeBlocks go)) = s.afterError 2#4 s.srcLen := by
  rw [needSrcFits_pass _ hL, needWholeBlocks_stop go h, finish_fails, raise_eq_afterError, ErrorKind.code]

theorem finish_raggedRows (hL : s.srcLen.toNat ≤ s.params.maxlen) (h : s.srcLen.toNat % s.ni.toNat ≠ 0) (go : Rule) :
    s.finish (s.needSrcFits (s.needWholeRows go)) = s.afterError 3#4 s.srcLen := by
  rw [needSrcFits_pass _ hL, needWholeRows_stop go h, finish_fails, raise_eq_afterError, ErrorKind.code]

/-! ## A result in DST -/

theorem lt_two_pow_of_le_maxlen {p : Params} (hp : p.Legal) {n : Nat} (hn : n ≤ p.maxlen) : n < 2 ^ 32 := by
  obtain ⟨_, ⟨_, hmax, _⟩, _⟩ := hp
  omega

theorem writeResult_dstLen_toNat {bytes : List Byte} (h : bytes.length < 2 ^ 32) :
    (s.writeResult bytes).dstLen.toNat = bytes.length := by
  rw [State.writeResult_dstLen, BitVec.toNat_ofNat, Nat.mod_eq_of_lt h]

/-- Below the DST_LEN that a result leaves, DST holds the result's bytes. -/
theorem read_dst_writeResult {bytes : List Byte} {k : Nat} (hk : k < (s.writeResult bytes).dstLen.toNat) :
    (s.writeResult bytes).dst.read k = byteAt bytes k := by
  rw [State.writeResult_dstLen, BitVec.toNat_ofNat] at hk
  rw [State.writeResult_dst, Memory.read_fresh, if_pos (hk.trans_le (Nat.mod_le _ _))]

/-- Two states at issue with one result leave the same DST_LEN and the same bytes below it. -/
theorem completed_writeResult_agree (s s' : State) (bytes : List Byte) :
    (s'.writeResult bytes).complete.dstLen = (s.writeResult bytes).complete.dstLen ∧
      ∀ k, k < (s.writeResult bytes).complete.dstLen.toNat →
        (s'.writeResult bytes).complete.dst.read k = (s.writeResult bytes).complete.dst.read k :=
  ⟨rfl, fun _ hk => (read_dst_writeResult (s := s') hk).trans (read_dst_writeResult (s := s) hk).symm⟩

/-- The completion of a result in the words of the claims: its bytes, and free values above them (R37; log 5). -/
theorem completed_writeResult (s : State) {bytes : List Byte} {n : Nat} (hn : bytes.length = n) :
    ∃ d : Memory, (s.writeResult bytes).complete = (s.withResult d n (s.drawn + 1)).afterSuccess ∧
      (∀ k, k < n → d.read k = byteAt bytes k) ∧ ∀ k, n ≤ k → d.read k = Config.freeByte s.drawn k := by
  subst hn
  refine ⟨⟨cellsFrom 0 bytes, s.drawn⟩, rfl, fun k hk => ?_, fun k hk => ?_⟩
  · rw [Memory.read_fresh, if_pos hk]
  · rw [Memory.read_fresh, if_neg (not_lt.mpr hk)]

/-! ## The messages, byte by byte -/

theorem byteAt_blocksBytes_div {B k : Nat} (f : Nat → Block) (hk : k < 16 * B) :
    byteAt (blocksBytes B f) k = blockByte (f (k / 16)) (k % 16) := by
  have h := byteAt_blocksBytes f (Nat.div_lt_of_lt_mul hk) (Nat.mod_lt k (by decide))
  rwa [Nat.div_add_mod] at h

theorem blockByte_partition (g : Nat → Byte) {k : Nat} (hk : k < 16) : blockByte (partition g) k = g k := by
  simp [blockByte, flatten_partition, byteAt, hk]

theorem encryptedMessage_length (s : State) : s.encryptedMessage.length = 16 * ceilDiv s.srcLen.toNat 16 :=
  blocksBytes_length _ _

theorem byteAt_encryptedMessage {b k : Nat} (hb : b < ceilDiv s.srcLen.toNat 16) (hk : k < 16) :
    byteAt s.encryptedMessage (16 * b + k) =
      blockByte (encBlock s.roundKey (partition (s.loadBlock b s.srcBytes))) k :=
  byteAt_blocksBytes _ hb hk

/-- Byte `k` of the blocks of SRC, each decrypted on its own (R121). -/
def State.decryptedByte (s : State) (k : Nat) : Byte :=
  blockByte (decBlock s.roundKey (partition fun x => s.src.read (16 * (k / 16) + x))) (k % 16)

theorem decryptedMessage_length (h16 : s.srcLen.toNat % 16 = 0) : s.decryptedMessage.length = s.srcLen.toNat := by
  rw [State.decryptedMessage, blocksBytes_length]
  exact Nat.mul_div_cancel' (Nat.dvd_of_mod_eq_zero h16)

theorem byteAt_decryptedMessage (h16 : s.srcLen.toNat % 16 = 0) {k : Nat} (hk : k < s.srcLen.toNat) :
    byteAt s.decryptedMessage k = s.decryptedByte k := by
  rw [← decryptedMessage_length h16, State.decryptedMessage, blocksBytes_length] at hk
  exact byteAt_blocksBytes_div _ hk

theorem untransposed_length (hN : s.srcLen.toNat % s.ni.toNat = 0) : s.untransposed.length = s.srcLen.toNat := by
  rw [State.untransposed, unCol, flatGrid_length]
  exact Nat.div_mul_cancel (Nat.dvd_of_mod_eq_zero hN)

/-- The message padded with zeros, byte `k` (R123, R126). -/
def State.paddedByte (s : State) (k : Nat) : Byte := if k < s.srcLen.toNat then s.src.read k else 0#8

theorem loadBlock_eq_paddedByte (b k : Nat) : s.loadBlock b s.srcBytes k = s.paddedByte (16 * b + k) := rfl

theorem le_mul_ceilDiv (L : Nat) : L ≤ 16 * ceilDiv L 16 := by
  unfold ceilDiv
  omega

theorem mul_ceilDiv_lt (L : Nat) : 16 * ceilDiv L 16 < L + 16 := by
  unfold ceilDiv
  omega

/-! ## The zero trim -/

theorem ZeroTrimmed.congr {O O' : Nat → Byte} {L n : Nat} (h : ZeroTrimmed O L n) (hO : ∀ k, k < L → O k = O' k) :
    ZeroTrimmed O' L n := by
  obtain ⟨hle, hblock, hzero, hlast⟩ := h
  refine ⟨hle, hblock, fun k hk hkL => hO k hkL ▸ hzero k hk hkL, ?_⟩
  rcases Nat.eq_zero_or_pos L with hL | hL
  · exact .inl hL
  · rwa [← hO (n - 1) (by omega)]

/-- A longer length left would end in a zero byte of the final block. -/
theorem ZeroTrimmed.le {O : Nat → Byte} {L n m : Nat} (hn : ZeroTrimmed O L n) (hm : ZeroTrimmed O L m) : m ≤ n := by
  obtain ⟨_, hblock, hzero, _⟩ := hn
  obtain ⟨hle, _, _, hlast⟩ := hm
  by_contra h
  rcases hlast with h0 | h16 | hne
  · omega
  · omega
  · exact hne (hzero (m - 1) (by omega) (by omega))

theorem ZeroTrimmed.unique {O : Nat → Byte} {L n m : Nat} (hn : ZeroTrimmed O L n) (hm : ZeroTrimmed O L m) : n = m :=
  le_antisymm (hm.le hn) (hn.le hm)

theorem zeroTrimmed_trimzLen (bs : List Byte) {L : Nat} (h16 : L % 16 = 0) :
    ZeroTrimmed (byteAt bs) L (trimzLen bs L) := by
  obtain ⟨hle, hblock, hzero, hlast⟩ := trimzLen_spec bs L
  refine ⟨hle, hblock, hzero, ?_⟩
  rcases hlast with h | h | h
  · exact .inl h
  · rcases Nat.eq_zero_or_pos L with hL | hL
    · exact .inl hL
    · exact .inr (.inl (by omega))
  · exact .inr (.inr h)

/-- A message that is empty or ends in a nonzero byte is what the zero trim leaves of its blocks (R126). -/
theorem zeroTrimmed_paddedByte (hlast : s.srcLen.toNat = 0 ∨ s.src.read (s.srcLen.toNat - 1) ≠ 0#8) :
    ZeroTrimmed s.paddedByte (16 * ceilDiv s.srcLen.toNat 16) s.srcLen.toNat := by
  refine ⟨le_mul_ceilDiv _, (mul_ceilDiv_lt _).le, fun k hk _ => if_neg (not_lt.mpr hk), ?_⟩
  rcases Nat.eq_zero_or_pos s.srcLen.toNat with hL | hL
  · rw [hL]
    exact .inl rfl
  · rw [State.paddedByte, if_pos (Nat.sub_lt hL one_pos)]
    exact .inr (.inr (hlast.resolve_left hL.ne'))

/-! ## What MDEC keeps -/

theorem mdecLen_le (s : State) (nt : Bool) : s.mdecLen nt ≤ s.srcLen.toNat := by
  cases nt with
  | true => exact le_rfl
  | false => exact (trimzLen_spec _ _).1

theorem length_take_mdecLen (h16 : s.srcLen.toNat % 16 = 0) (nt : Bool) :
    (s.decryptedMessage.take (s.mdecLen nt)).length = s.mdecLen nt := by
  rw [List.length_take, decryptedMessage_length h16, min_eq_left (mdecLen_le s nt)]

theorem byteAt_take_mdecLen (h16 : s.srcLen.toNat % 16 = 0) {nt : Bool} {k : Nat} (hk : k < s.mdecLen nt) :
    byteAt (s.decryptedMessage.take (s.mdecLen nt)) k = s.decryptedByte k := by
  rw [byteAt_take _ hk, byteAt_decryptedMessage h16 (hk.trans_le (mdecLen_le s nt))]

theorem mdecLen_spec (h16 : s.srcLen.toNat % 16 = 0) (nt : Bool) :
    if nt then s.mdecLen nt = s.srcLen.toNat else ZeroTrimmed s.decryptedByte s.srcLen.toNat (s.mdecLen nt) := by
  cases nt with
  | true => rfl
  | false => exact (zeroTrimmed_trimzLen _ h16).congr fun k hk => byteAt_decryptedMessage h16 hk

/-- Under NOTRIM no byte is cut off (R121). -/
theorem exec_mdec_notrim (hrk : s.status.rkValid = true) (hL : s.srcLen.toNat ≤ s.params.maxlen)
    (h16 : s.srcLen.toNat % 16 = 0) : exec (.mdec true) s = .next (s.writeResult s.decryptedMessage).complete := by
  have hall : s.decryptedMessage.take (s.mdecLen true) = s.decryptedMessage :=
    List.take_of_length_le (decryptedMessage_length h16).le
  rw [exec_mdec hrk hL h16, hall]

/-- The length and the bytes that a successful MDEC or MDEC.NT leaves (R121). -/
theorem mdec_next (hp : s.params.Legal) (hrk : s.status.rkValid = true) (hL : s.srcLen.toNat ≤ s.params.maxlen)
    (h16 : s.srcLen.toNat % 16 = 0) {nt : Bool} {t : State} (h : exec (.mdec nt) s = .next t) :
    (if nt then t.dstLen.toNat = s.srcLen.toNat else ZeroTrimmed s.decryptedByte s.srcLen.toNat t.dstLen.toNat) ∧
      ∀ k, k < t.dstLen.toNat → t.dst.read k = s.decryptedByte k := by
  rw [exec_mdec hrk hL h16, Host.Outcome.next.injEq] at h
  subst h
  have hn := length_take_mdecLen h16 nt
  have hlen : (s.writeResult (s.decryptedMessage.take (s.mdecLen nt))).dstLen.toNat = s.mdecLen nt :=
    (writeResult_dstLen_toNat (hn.trans_lt (lt_two_pow_of_le_maxlen hp ((mdecLen_le s nt).trans hL)))).trans hn
  rw [State.complete_dstLen, State.complete_dst, hlen]
  exact ⟨mdecLen_spec h16 nt,
    fun k hk => (read_dst_writeResult (hk.trans_eq hlen.symm)).trans (byteAt_take_mdecLen h16 hk)⟩

/-! ## A result that MOVE takes back to SRC -/

/-- The state after a command with the result `bytes` and then MOVE (R161). -/
def State.movedResult (s : State) (bytes : List Byte) : State := (s.writeResult bytes).complete.moveResult.complete

section Moved

variable {bytes : List Byte}

theorem movedResult_roundKey : (s.movedResult bytes).roundKey = s.roundKey := rfl

theorem exec_move_writeResult : exec .move (s.writeResult bytes).complete = .next (s.movedResult bytes) := rfl

theorem movedResult_srcLen_toNat (h : bytes.length < 2 ^ 32) : (s.movedResult bytes).srcLen.toNat = bytes.length :=
  writeResult_dstLen_toNat (s := s) h

theorem movedResult_src_read (h : bytes.length < 2 ^ 32) {k : Nat} (hk : k < bytes.length) :
    (s.movedResult bytes).src.read k = byteAt bytes k := by
  have hlen : k < (s.writeResult bytes).dstLen.toNat := by rwa [writeResult_dstLen_toNat h]
  simp only [State.movedResult, State.complete_src, State.moveResult_src, State.complete_dst, State.complete_dstLen]
  rw [Memory.read_writeRange, if_pos (by simpa using hlen), Nat.sub_zero, Memory.byteAt_readRange _ hlen, Nat.zero_add,
    read_dst_writeResult hlen]

theorem movedResult_src_readRange (h : bytes.length < 2 ^ 32) :
    (s.movedResult bytes).src.readRange 0 bytes.length = bytes := by
  refine byteAt_ext (Memory.readRange_length _ _ _) fun k hk => ?_
  rw [Memory.readRange_length] at hk
  rw [Memory.byteAt_readRange _ hk, Nat.zero_add, movedResult_src_read h hk]

end Moved

/-- Decryption reads block for block what encryption wrote, and undoes it under the same round keys (R126). -/
theorem decryptedByte_movedResult_encryptedMessage (h : s.encryptedMessage.length < 2 ^ 32) {k : Nat}
    (hk : k < 16 * ceilDiv s.srcLen.toNat 16) :
    (s.movedResult s.encryptedMessage).decryptedByte k = s.paddedByte k := by
  have hb : k / 16 < ceilDiv s.srcLen.toNat 16 := Nat.div_lt_of_lt_mul hk
  have hblock : (partition fun x => (s.movedResult s.encryptedMessage).src.read (16 * (k / 16) + x)) =
      encBlock s.roundKey (partition (s.loadBlock (k / 16) s.srcBytes)) := by
    rw [← partition_flatten (encBlock s.roundKey _)]
    refine partition_congr fun x hx => ?_
    rw [movedResult_src_read h (by rw [encryptedMessage_length]; omega)]
    exact byteAt_encryptedMessage hb hx
  rw [State.decryptedByte, hblock, movedResult_roundKey, decBlock_encBlock,
    blockByte_partition _ (Nat.mod_lt k (by decide)), loadBlock_eq_paddedByte, Nat.div_add_mod]

/-- TRIMZ of MDEC.NT's bytes keeps the bytes that MDEC keeps (R121, R122). -/
theorem readRange_trimzLen_movedResult {bytes : List Byte} (h : bytes.length < 2 ^ 32) :
    let u := s.movedResult bytes
    u.src.readRange 0 (trimzLen (u.src.readRange 0 u.srcBytes) u.srcBytes) =
      bytes.take (trimzLen bytes bytes.length) := by
  intro u
  have hlen : u.srcBytes = bytes.length := movedResult_srcLen_toNat h
  have hle : trimzLen bytes bytes.length ≤ bytes.length := (trimzLen_spec _ _).1
  rw [hlen, movedResult_src_readRange h]
  refine byteAt_ext (by simp [hle]) fun k hk => ?_
  rw [Memory.readRange_length] at hk
  rw [Memory.byteAt_readRange _ hk, Nat.zero_add, byteAt_take _ hk, movedResult_src_read h (hk.trans_le hle)]

end Sys2Proof.Machine

open Sys2Proof Sys2Proof.Machine

/-- Settles O12: byte 16b + k of the encrypted message is byte k of its encrypted block b. -/
theorem mencEncryptsEveryBlock : Obligations.MencEncryptsEveryBlock := by
  intro s hrk hL
  obtain ⟨d, hd, hread, hfree⟩ := completed_writeResult s (encryptedMessage_length s)
  refine ⟨d, by rw [exec_menc hrk hL, hd], fun b k hb hk => ?_, hfree⟩
  rw [hread _ (by omega), byteAt_encryptedMessage hb hk]
  rfl

/-- Settles O13: MDEC keeps the first bytes of the decrypted message, as many as the zero trim leaves. -/
theorem mdecDecryptsEveryBlock : Obligations.MdecDecryptsEveryBlock := by
  intro s nt hrk hL h16 O
  obtain ⟨d, hd, hread, hfree⟩ := completed_writeResult s (length_take_mdecLen h16 nt)
  exact ⟨d, s.mdecLen nt, by rw [exec_mdec hrk hL h16, hd], mdecLen_spec h16 nt,
    fun k hk => (hread k hk).trans (byteAt_take_mdecLen h16 hk), hfree⟩

/-- Settles O14: TRIMZ copies the message up to what the zero trim leaves. -/
theorem trimzTrimsTheFinalBlock : Obligations.TrimzTrimsTheFinalBlock := by
  intro s hL h16
  obtain ⟨d, hd, hread, hfree⟩ := completed_writeResult s
    (Memory.readRange_length s.src 0 (trimzLen (s.src.readRange 0 s.srcBytes) s.srcBytes))
  refine ⟨d, _, by rw [exec_trimz hL h16, hd], ?_, fun k hk => ?_, hfree⟩
  · refine (zeroTrimmed_trimzLen _ h16).congr fun k hk => ?_
    rw [State.srcBytes, Memory.byteAt_readRange _ hk, Nat.zero_add]
  · rw [hread k hk, Memory.byteAt_readRange _ hk, Nat.zero_add]

/-- Settles O50: DST_LEN is the number of bytes of the result, which fits into a word. -/
theorem blockCipherLengths : Obligations.BlockCipherLengths := by
  intro s t hp _ ht
  refine ⟨fun h => ?_, fun h _ => ?_, fun h => ?_⟩
  · obtain ⟨_, ⟨_, hL, rfl⟩, rfl⟩ := exec_succeeded h ht
    rw [State.complete_dstLen, writeResult_dstLen_toNat (lt_two_pow_of_le_maxlen hp (State.encryptedMessage_fits hp hL)),
      encryptedMessage_length, Nat.mul_comm]
  · obtain ⟨_, ⟨_, hL, h16, rfl⟩, rfl⟩ := exec_succeeded h ht
    obtain ⟨hle, hblock, _⟩ := trimzLen_spec s.decryptedMessage s.srcLen.toNat
    have hlen : (s.decryptedMessage.take (s.mdecLen false)).length = trimzLen s.decryptedMessage s.srcLen.toNat :=
      length_take_mdecLen h16 false
    rw [State.complete_dstLen, writeResult_dstLen_toNat (lt_two_pow_of_le_maxlen hp (by omega)), hlen]
    omega
  · obtain ⟨_, ⟨_, _, h16, rfl⟩, rfl⟩ := exec_succeeded h ht
    rw [State.complete_dstLen, State.writeResult_dstLen, length_take_mdecLen h16]
    exact (BitVec.ofNat_toNat 32 s.srcLen).trans (BitVec.setWidth_eq s.srcLen)

/-- Settles O51: what MDEC decrypts is the padded message, and the zero trim leaves one length only. -/
theorem encryptedMessageIsRecovered : Obligations.EncryptedMessageIsRecovered := by
  intro s t u v nt hp hrk hL ht hu hv L P
  rw [exec_menc hrk hL, Host.Outcome.next.injEq] at ht
  subst ht
  rw [exec_move_writeResult, Host.Outcome.next.injEq] at hu
  subst hu
  have hfit := State.encryptedMessage_fits hp hL
  have hword := lt_two_pow_of_le_maxlen hp hfit
  have hlen := movedResult_srcLen_toNat (s := s) hword
  have hblocks := encryptedMessage_length s
  obtain ⟨hn, hread⟩ := mdec_next (s := s.movedResult s.encryptedMessage) hp hrk (hlen.trans_le hfit)
    (by rw [hlen, hblocks, Nat.mul_mod_right]) hv
  rw [hlen, hblocks] at hn
  have hP : ∀ k, k < 16 * ceilDiv L 16 → (s.movedResult s.encryptedMessage).decryptedByte k = P k :=
    fun k hk => decryptedByte_movedResult_encryptedMessage hword hk
  cases nt with
  | true => exact ⟨hn, fun k hk => (hread k hk).trans (hP k (hk.trans_eq hn)), fun h => nomatch h⟩
  | false =>
    have hn : ZeroTrimmed P _ _ := ZeroTrimmed.congr hn hP
    exact ⟨hn, fun k hk => (hread k hk).trans (hP k (hk.trans_le hn.1)),
      fun _ hlast => BitVec.eq_of_toNat_eq (hn.unique (zeroTrimmed_paddedByte hlast))⟩

/-- Settles O55: the trim of the moved bytes is the trim that the decryption does itself. -/
theorem trimCommandsFinishTheDecryptions : Obligations.TrimCommandsFinishTheDecryptions := by
  intro s a t u v hp _ ha
  refine ⟨fun hsa hst htu huv => ?_, fun _ hsa hst htu huv => ?_⟩
  · obtain ⟨_, ⟨hrk, hL, h16, rfl⟩, rfl⟩ := exec_succeeded hsa ha
    have hlen := decryptedMessage_length h16
    have hword := lt_two_pow_of_le_maxlen hp (hlen.trans_le hL)
    rw [exec_mdec_notrim hrk hL h16, Host.Outcome.next.injEq] at hst
    subst hst
    rw [exec_move_writeResult, Host.Outcome.next.injEq] at htu
    subst htu
    have hu := (movedResult_srcLen_toNat (s := s) hword).trans hlen
    rw [exec_trimz (hu.trans_le hL) (hu ▸ h16), readRange_trimzLen_movedResult hword, hlen,
      Host.Outcome.next.injEq] at huv
    subst huv
    exact completed_writeResult_agree _ _ _
  · obtain ⟨_, ⟨htp, hL, hN, rfl⟩, rfl⟩ := exec_succeeded hsa ha
    have hlen := untransposed_length hN
    have hword := lt_two_pow_of_le_maxlen hp (hlen.trans_le hL)
    rw [exec_tdec htp hL hN, if_pos rfl, Host.Outcome.next.injEq] at hst
    subst hst
    rw [exec_move_writeResult, Host.Outcome.next.injEq] at htu
    subst htu
    have hu := movedResult_srcLen_toNat (s := s) hword
    rw [exec_trimp (hu.trans_le (hlen.trans_le hL)), State.srcBytes, hu, movedResult_src_readRange hword,
      Host.Outcome.next.injEq] at huv
    subst huv
    exact completed_writeResult_agree _ _ _

/-- Settles O23: the check of the length stops each rule that has its key material. -/
theorem overlongMessagesRaiseLengthOverflow : Obligations.OverlongMessagesRaiseLengthOverflow := by
  intro s hL
  have hstop (go : Rule) := congrArg (Host.Outcome.next (φ := Fault) (ρ := Refusal)) (finish_overlong hL go)
  refine ⟨fun hrk => ?_, fun htp => ?_, hstop _, hstop _⟩
  · have hkeyed (go : Rule) : s.needKeySchedule (s.needSrcFits go) = s.needSrcFits go := needKeySchedule_pass _ hrk
    simp only [exec, execMenc, execMdec, hkeyed]
    exact ⟨hstop _, fun _ => hstop _⟩
  · have hkeyed (go : Rule) : s.needPermutationKeys (s.needSrcFits go) = s.needSrcFits go :=
      needPermutationKeys_pass _ htp
    simp only [exec, execTenc, execTdec, hkeyed]
    exact ⟨hstop _, fun _ => hstop _⟩

/-- Settles O24: the check for whole blocks or rows stops each rule whose message fits. -/
theorem raggedMessagesRaiseTheirLengthError : Obligations.RaggedMessagesRaiseTheirLengthError := by
  intro s hL
  refine ⟨fun h16 => ⟨fun hrk nt => ?_, ?_⟩, fun hN htp nt => ?_⟩
  · rw [exec, execMdec, needKeySchedule_pass _ hrk, finish_raggedBlocks hL h16]
  · rw [exec, execTrimz, finish_raggedBlocks hL h16]
  · rw [exec, execTdec, needPermutationKeys_pass _ htp, finish_raggedRows hL hN]

end

section
/-! PROOFS. The configuration of the transposition (43_transposition.md, R140): TCFG latches two permutations (O15) and
reports the first failing check otherwise (O22). -/

namespace Sys2Proof.Machine

/-! ## The check of one key -/

/-- The values of a permutation key are distinct. -/
theorem IsPermutationKey.index_eq {n : Nat} {f : Nat → Word} (h : IsPermutationKey n f) {i j : Nat} (hi : i < n)
    (hj : j < n) (he : f i = f j) : i = j := by
  obtain ⟨_, hne⟩ := h
  rcases lt_trichotomy i j with hij | hij | hij
  · exact absurd he (hne i j hij hj)
  · exact hij
  · exact absurd he.symm (hne j i hij hi)

theorem Table.mem_readRange {t : Table} {n : Nat} {v : Word} : v ∈ t.readRange n ↔ ∃ j, j < n ∧ t.read j = v := by
  simp [Table.readRange]

theorem Table.getElem_readRange (t : Table) {n j : Nat} (hj : j < (t.readRange n).length) :
    (t.readRange n)[j] = t.read j := by
  simp [Table.readRange]

theorem Table.take_readRange (t : Table) {n j : Nat} (hj : j ≤ n) : (t.readRange n).take j = t.readRange j := by
  rw [Table.readRange, ← List.map_take, List.take_range, min_eq_left hj, Table.readRange]

/-- A permutation key passes the check. -/
theorem Table.firstOffending_eq_none {t : Table} {n : Nat} (h : IsPermutationKey n t.read) :
    firstOffending n [] 0 (t.readRange n) = none := by
  refine (firstOffending_none n _ [] 0).mpr ⟨fun v hv => ?_, ?_⟩
  · obtain ⟨j, hj, rfl⟩ := Table.mem_readRange.mp hv
    exact ⟨h.1 j hj, List.not_mem_nil⟩
  · exact List.Nodup.map_on
      (fun i hi j hj he => h.index_eq (List.mem_range.mp hi) (List.mem_range.mp hj) he) List.nodup_range

/-- What the check asks of the value at index `j` of a table's key is that `j` is offending. -/
theorem Table.offendingAt_iff (t : Table) {n j : Nat} (hj : j < n) :
    (t.read j).toNat < 1 ∨ n < (t.read j).toNat ∨ t.read j ∈ [] ++ (t.readRange n).take j ↔ OffendingAt n t.read j := by
  rw [List.nil_append, t.take_readRange hj.le, Table.mem_readRange, OffendingAt]

/-- The check answers the first offending index. -/
theorem Table.firstOffending_eq_some {t : Table} {n j : Nat} (h : FirstOffendingAt n t.read j) :
    firstOffending n [] 0 (t.readRange n) = some j := by
  obtain ⟨hj, hoff, hbefore⟩ := h
  refine (firstOffending_some n _ [] 0 j).mpr
    ⟨j, (Nat.zero_add j).symm, (t.readRange_length n).symm ▸ hj, ?_, fun m hm => ?_⟩
  · rw [Table.getElem_readRange]
    exact (t.offendingAt_iff hj).mpr hoff
  · rw [Table.getElem_readRange, t.offendingAt_iff (hm.trans hj)]
    exact hbefore m hm

/-! ## The rule of TCFG -/

section Tcfg

variable {s : State}

theorem exec_tcfg (s : State) : exec .tcfg s = .next (s.finish s.tcfgRule) := rfl

theorem exec_tcfg_fails {info : Word} (h : s.tcfgRule = fails .invalidPermutationKey info) :
    exec .tcfg s = .next (s.afterError 6#4 info) := by
  rw [exec_tcfg, h, finish_fails, raise_eq_afterError, ErrorKind.code]

theorem tcfgRule_badSize (h : s.tpN.toNat = 0 ∨ s.params.nmax < s.tpN.toNat) :
    s.tcfgRule = fails .invalidPermutationKey (keyErrorInfo true false 0) := if_pos h

variable (h1 : 1 ≤ s.tpN.toNat) (hmax : s.tpN.toNat ≤ s.params.nmax)
include h1 hmax

theorem tcfgRule_badSecondSize (h : s.tpSkLen ≠ s.tpN) :
    s.tcfgRule = fails .invalidPermutationKey (keyErrorInfo true true 0) :=
  (if_neg (by omega)).trans (if_pos h)

/-- Once the sizes are right the two keys are checked in turn, and latched when both pass. -/
theorem tcfgRule_sized (h : s.tpSkLen = s.tpN) :
    s.tcfgRule = match firstOffending s.tpN.toNat [] 0 (s.fk.readRange s.tpN.toNat) with
      | some j => fails .invalidPermutationKey (keyErrorInfo false false j)
      | none => match firstOffending s.tpN.toNat [] 0 (s.sk.readRange s.tpN.toNat) with
        | some j => fails .invalidPermutationKey (keyErrorInfo false true j)
        | none => .ok (s.latchKeys s.tpN.toNat) :=
  (if_neg (by omega)).trans (if_neg (not_not.mpr h))

theorem tcfgRule_badFirstKey (h : s.tpSkLen = s.tpN) {j : Nat} (hj : FirstOffendingAt s.tpN.toNat s.fk.read j) :
    s.tcfgRule = fails .invalidPermutationKey (keyErrorInfo false false j) := by
  rw [tcfgRule_sized h1 hmax h, Table.firstOffending_eq_some hj]

theorem tcfgRule_badSecondKey (h : s.tpSkLen = s.tpN) (hfk : IsPermutationKey s.tpN.toNat s.fk.read) {j : Nat}
    (hj : FirstOffendingAt s.tpN.toNat s.sk.read j) :
    s.tcfgRule = fails .invalidPermutationKey (keyErrorInfo false true j) := by
  rw [tcfgRule_sized h1 hmax h, Table.firstOffending_eq_none hfk, Table.firstOffending_eq_some hj]

theorem tcfgRule_pass (h : s.tpSkLen = s.tpN) (hfk : IsPermutationKey s.tpN.toNat s.fk.read)
    (hsk : IsPermutationKey s.tpN.toNat s.sk.read) : s.tcfgRule = .ok (s.latchKeys s.tpN.toNat) := by
  rw [tcfgRule_sized h1 hmax h, Table.firstOffending_eq_none hfk, Table.firstOffending_eq_none hsk]

end Tcfg

/-- A table that latches the first `n` entries of another keeps its own entries from `n` on. -/
theorem Table.read_writeRange_readRange (u t : Table) (n j : Nat) :
    (u.writeRange (t.readRange n)).read j = if j < n then t.read j else u.read j := by
  rw [Table.read_writeRange, Table.readRange_length]
  split
  · rename_i hj
    exact t.getD_readRange hj
  · rfl

/-! ## ERRINFO of a failing TCFG -/

theorem keyErrorInfo_firstKey (j : Nat) : keyErrorInfo false false j = BitVec.ofNat 32 j := by
  simp [keyErrorInfo, flagBit]

theorem keyErrorInfo_secondKey (j : Nat) : keyErrorInfo false true j = 0x10000#32 ||| BitVec.ofNat 32 j := by
  simp [keyErrorInfo, flagBit]

end Sys2Proof.Machine

open Sys2Proof Sys2Proof.Machine

/-- Settles O15: both permutations pass the check, and latching a key copies its first TP_N entries. -/
theorem tcfgLatchesPermutations : Obligations.TcfgLatchesPermutations := by
  intro s h1 hmax hlen hfk hsk
  refine ⟨s.fki.writeRange (s.fk.readRange s.tpN.toNat), s.ski.writeRange (s.sk.readRange s.tpN.toNat), ?_, fun j =>
    ⟨Table.read_writeRange_readRange _ _ _ j, Table.read_writeRange_readRange _ _ _ j⟩⟩
  rw [exec_tcfg, tcfgRule_pass h1 hmax hlen hfk hsk, finish_ok, complete_eq_afterSuccess]
  rfl

/-- Settles O22: each failing check stops the rule with its own ERRINFO. -/
theorem tcfgReportsTheFirstOffence : Obligations.TcfgReportsTheFirstOffence := by
  refine fun s => ⟨fun h => exec_tcfg_fails (tcfgRule_badSize h), fun h1 hmax =>
    ⟨fun h => exec_tcfg_fails (tcfgRule_badSecondSize h1 hmax h), fun h => ⟨fun j hj => ?_, fun hfk j hj => ?_⟩⟩⟩
  · rw [exec_tcfg_fails (tcfgRule_badFirstKey h1 hmax h hj), keyErrorInfo_firstKey]
  · rw [exec_tcfg_fails (tcfgRule_badSecondKey h1 hmax h hfk hj), keyErrorInfo_secondKey]

end

section
/-! PROOFS. The transposition of a text (43_transposition.md): TENC, TDEC and TRIMP character by character (O16 to O18), a
padded text that is too long (O25), the inverse law (O52), the length law (O53), and that no character changes (O54).
Both directions turn on `State.cipherPos`, where a cell of the first grid stands in the cipher text: TENC writes each
cell there and TDEC reads it back from there. -/

namespace Sys2Proof.Machine

/-! ## Positions in a grid -/

theorem grid_inj {cols i j i' j' : Nat} (hj : j < cols) (hj' : j' < cols) (h : i * cols + j = i' * cols + j') :
    i = i' ∧ j = j' :=
  ⟨by rw [← grid_div (i := i) hj, h, grid_div hj'], by rw [← grid_mod (i := i) hj, h, grid_mod hj']⟩

theorem flatGrid_congr {rows cols : Nat} {cell cell' : Nat → Nat → Byte}
    (h : ∀ i j, i < rows → j < cols → cell i j = cell' i j) : flatGrid rows cols cell = flatGrid rows cols cell' :=
  List.flatMap_congr fun i hi => List.map_congr_left fun j hj => h i j (List.mem_range.mp hi) (List.mem_range.mp hj)

theorem byteAt_flatGrid_div_mod {rows cols k : Nat} (cell : Nat → Nat → Byte) (hk : k < rows * cols) :
    byteAt (flatGrid rows cols cell) k = cell (k / cols) (k % cols) := by
  obtain ⟨hrow, hcol, hpos⟩ := grid_div_mod hk
  rw [← byteAt_flatGrid cell hrow hcol, hpos]

/-- The writes of a grid that is written to distinct positions of a string of its size name every position once. -/
theorem gridWrites_fst_perm_range {rows cols : Nat} {pos : Nat → Nat → Nat} (cell : Nat → Nat → Byte)
    (hlt : ∀ i j, i < rows → j < cols → pos i j < rows * cols)
    (hinj : ∀ i j i' j', i < rows → j < cols → i' < rows → j' < cols → pos i j = pos i' j' → i = i' ∧ j = j') :
    ((gridWrites rows cols pos cell).map Prod.fst).Perm (List.range (rows * cols)) := by
  refine (List.subperm_of_subset (gridWrites_nodup hinj) fun p hp => ?_).perm_of_length_le
    (by simp [gridWrites_length])
  simp only [gridWrites, List.mem_map, List.mem_flatMap, List.mem_range] at hp
  obtain ⟨_, ⟨i, hi, j, hj, rfl⟩, rfl⟩ := hp
  exact List.mem_range.mpr (hlt i j hi hj)

/-- A grid that reads each position of a string in one cell is a rearrangement of the string. -/
theorem flatGrid_byteAt_perm {rows cols : Nat} {pos : Nat → Nat → Nat} {c : List Byte} (hc : c.length = rows * cols)
    (hlt : ∀ i j, i < rows → j < cols → pos i j < rows * cols)
    (hinj : ∀ i j i' j', i < rows → j < cols → i' < rows → j' < cols → pos i j = pos i' j' → i = i' ∧ j = j') :
    (flatGrid rows cols fun i j => byteAt c (pos i j)).Perm c := by
  have hflat : (flatGrid rows cols fun i j => byteAt c (pos i j)) =
      ((gridWrites rows cols pos fun i j => byteAt c (pos i j)).map Prod.fst).map (byteAt c) := by
    simp [flatGrid, gridWrites, List.map_flatMap, Function.comp_def]
  rw [hflat]
  refine ((gridWrites_fst_perm_range _ hlt hinj).map (byteAt c)).trans ?_
  rw [← hc, ← eq_map_byteAt]

/-! ## Shuffles -/

/-- `f` sends the indices below `n` to distinct indices below `n`: what FKI[j] - 1 and SKI[a] - 1 do (R140, R141). -/
def IsShuffle (n : Nat) (f : Nat → Nat) : Prop :=
  (∀ j, j < n → f j < n) ∧ ∀ i j, i < n → j < n → f i = f j → i = j

theorem IsPermutationKey.isShuffle {n : Nat} {f : Nat → Word} (h : IsPermutationKey n f) :
    IsShuffle n fun j => (f j).toNat - 1 := by
  have hrange := h.1
  refine ⟨fun j hj => ?_, fun i j hi hj he => h.index_eq hi hj (BitVec.eq_of_toNat_eq ?_)⟩
  · obtain ⟨_, hle⟩ := hrange j hj
    exact (Nat.sub_le_sub_right hle 1).trans_lt (by omega)
  · exact Nat.sub_one_cancel (hrange i hi).1 (hrange j hj).1 he

/-- COLSHUF puts cell (i, j) at i*N + col j (R141). -/
theorem byteAt_colShuf {R N i j : Nat} {col : Nat → Nat} (hcol : IsShuffle N col) (G : Nat → Nat → Byte) (hi : i < R)
    (hj : j < N) : byteAt (colShuf R N col G) (i * N + col j) = G i j := by
  obtain ⟨hlt, hinj⟩ := hcol
  refine scatter_get (gridWrites_nodup fun i j i' j' _ hj _ hj' he => ?_) (mem_gridWrites hi hj) (grid_lt hi (hlt j hj))
  obtain ⟨hrow, hcol⟩ := grid_inj (hlt j hj) (hlt j' hj') he
  exact ⟨hrow, hinj j j' hj hj' hcol⟩

/-- ROWSHUF puts cell (a, b) at row a * R + b (R141). -/
theorem byteAt_rowShuf {R N a b : Nat} {row : Nat → Nat} (hrow : IsShuffle N row) (T : Nat → Nat → Byte) (ha : a < N)
    (hb : b < R) : byteAt (rowShuf R N row T) (row a * R + b) = T a b := by
  obtain ⟨hlt, hinj⟩ := hrow
  refine scatter_get (gridWrites_nodup fun a b a' b' ha hb ha' hb' he => ?_) (mem_gridWrites ha hb)
    ((grid_lt (hlt a ha) hb).trans_eq (Nat.mul_comm N R))
  obtain ⟨hrow, hcol⟩ := grid_inj hb hb' he
  exact ⟨hinj a a' ha ha' hrow, hcol⟩

/-! ## Where a cell stands in the cipher text -/

section Latched

variable {s : State} (hkeys : s.KeysLatched) {R i j : Nat}
include hkeys

theorem column_isShuffle : IsShuffle s.ni.toNat s.column := hkeys.2.1.isShuffle

theorem row_isShuffle : IsShuffle s.ni.toNat s.row := hkeys.2.2.isShuffle

/-- Where the column shuffle puts cell (i, j): position i*N + FKI[j] - 1, which is cell (p / R, p % R) of the second
grid (R141). -/
theorem shuffledColumn_cell (hi : i < R) (hj : j < s.ni.toNat) :
    let p := i * s.ni.toNat + s.column j
    p / R < s.ni.toNat ∧ p % R < R ∧ p / R * R + p % R = p :=
  grid_div_mod ((grid_lt hi ((column_isShuffle hkeys).1 j hj)).trans_eq (Nat.mul_comm R _))

theorem cipherPos_lt (hi : i < R) (hj : j < s.ni.toNat) : s.cipherPos R i j < R * s.ni.toNat := by
  obtain ⟨ha, hb, _⟩ := shuffledColumn_cell hkeys hi hj
  exact (grid_lt ((row_isShuffle hkeys).1 _ ha) hb).trans_eq (Nat.mul_comm _ R)

theorem cipherPos_inj {i' j' : Nat} (hi : i < R) (hj : j < s.ni.toNat) (hi' : i' < R) (hj' : j' < s.ni.toNat)
    (he : s.cipherPos R i j = s.cipherPos R i' j') : i = i' ∧ j = j' := by
  obtain ⟨ha, hb, hp⟩ := shuffledColumn_cell hkeys hi hj
  obtain ⟨ha', hb', hp'⟩ := shuffledColumn_cell hkeys hi' hj'
  obtain ⟨hcol, hcolInj⟩ := column_isShuffle hkeys
  obtain ⟨_, hrowInj⟩ := row_isShuffle hkeys
  obtain ⟨hrowEq, hmod⟩ := grid_inj hb hb' he
  have hdiv := hrowInj _ _ ha ha' hrowEq
  have hflat : i * s.ni.toNat + s.column j = i' * s.ni.toNat + s.column j' := by
    rw [← hp, ← hp', hdiv]
    exact congrArg _ hmod
  obtain ⟨hrow, hcolEq⟩ := grid_inj (hcol j hj) (hcol j' hj') hflat
  exact ⟨hrow, hcolInj j j' hj hj' hcolEq⟩

/-- The closed form of R142: both shuffles together put cell (i, j) at its cipher position. -/
theorem byteAt_shuffled (G : Nat → Nat → Byte) (hi : i < R) (hj : j < s.ni.toNat) :
    byteAt (rowShuf R s.ni.toNat s.row (regrid2 R (colShuf R s.ni.toNat s.column G))) (s.cipherPos R i j) = G i j := by
  obtain ⟨ha, hb, hp⟩ := shuffledColumn_cell hkeys hi hj
  calc byteAt (rowShuf R s.ni.toNat s.row (regrid2 R (colShuf R s.ni.toNat s.column G))) (s.cipherPos R i j)
    _ = regrid2 R (colShuf R s.ni.toNat s.column G) _ _ := byteAt_rowShuf (row_isShuffle hkeys) _ ha hb
    _ = byteAt (colShuf R s.ni.toNat s.column G) (i * s.ni.toNat + s.column j) := congrArg _ hp
    _ = G i j := byteAt_colShuf (column_isShuffle hkeys) G hi hj

/-- Undoing both shuffles reads each cell from its cipher position. -/
theorem unCol_unRow (c : List Byte) :
    unCol R s.ni.toNat s.column (unRow R s.ni.toNat s.row c) =
      flatGrid R s.ni.toNat fun i j => byteAt c (s.cipherPos R i j) := by
  refine flatGrid_congr fun i j hi hj => ?_
  obtain ⟨ha, hb, hp⟩ := shuffledColumn_cell hkeys hi hj
  rw [← hp, unRow, byteAt_flatGrid _ ha hb]
  rfl

/-- The inverse law (R146): undoing the shuffles of a grid gives the grid read row-major. -/
theorem unCol_unRow_shuffled (G : Nat → Nat → Byte) :
    unCol R s.ni.toNat s.column (unRow R s.ni.toNat s.row
      (rowShuf R s.ni.toNat s.row (regrid2 R (colShuf R s.ni.toNat s.column G)))) = flatGrid R s.ni.toNat G := by
  rw [unCol_unRow hkeys]
  exact flatGrid_congr fun i j hi hj => byteAt_shuffled hkeys G hi hj

/-- Undoing the shuffles only moves characters (R148). -/
theorem unCol_unRow_perm {c : List Byte} (hc : c.length = R * s.ni.toNat) :
    (unCol R s.ni.toNat s.column (unRow R s.ni.toNat s.row c)).Perm c := by
  rw [unCol_unRow hkeys]
  exact flatGrid_byteAt_perm hc (fun i j => cipherPos_lt hkeys) (fun i j i' j' => cipherPos_inj hkeys)

end Latched

/-! ## The text with its pads -/

/-- The first grid read row-major: the text of SRC and its M - L pads (R141). -/
def State.paddedText (s : State) : List Byte :=
  flatGrid (ceilDiv s.srcLen.toNat s.ni.toNat) s.ni.toNat (grid1 s.src.read s.srcLen.toNat s.ni.toNat)

theorem paddedText_length (s : State) :
    s.paddedText.length = ceilDiv s.srcLen.toNat s.ni.toNat * s.ni.toNat := flatGrid_length _ _ _

/-- Character `k` of the text and its pads. -/
def State.paddedChar (s : State) (k : Nat) : Byte := if k < s.srcLen.toNat then s.src.read k else pad

theorem byteAt_paddedText {s : State} {k : Nat} (hk : k < ceilDiv s.srcLen.toNat s.ni.toNat * s.ni.toNat) :
    byteAt s.paddedText k = s.paddedChar k := by
  rw [State.paddedText, byteAt_flatGrid_div_mod _ hk, grid1, Nat.div_add_mod', State.paddedChar]

theorem le_ceilDiv_mul {N : Nat} (hN : 1 ≤ N) (L : Nat) : L ≤ ceilDiv L N * N := by
  have := Nat.lt_div_mul_add (a := L + N - 1) hN
  rw [ceilDiv]
  omega

theorem paddedText_eq_append {s : State} (hN : 1 ≤ s.ni.toNat) :
    s.paddedText = s.src.readRange 0 s.srcLen.toNat ++
      List.replicate (ceilDiv s.srcLen.toNat s.ni.toNat * s.ni.toNat - s.srcLen.toNat) pad := by
  have hfits := le_ceilDiv_mul hN s.srcLen.toNat
  refine byteAt_ext (by simp [paddedText_length, hfits]) fun k hk => ?_
  rw [paddedText_length] at hk
  rw [byteAt_paddedText hk, State.paddedChar]
  by_cases hL : k < s.srcLen.toNat
  · rw [if_pos hL, byteAt, List.getD_append _ _ _ _ (by simpa using hL), ← byteAt, Memory.byteAt_readRange _ hL,
      Nat.zero_add]
  · rw [if_neg hL, byteAt, List.getD_append_right _ _ _ _ (by simpa using hL), Memory.readRange_length,
      List.getD_replicate _ (by omega)]

/-! ## The pad trim -/

theorem PadStripped.congr {O O' : Nat → Byte} {L a n : Nat} (h : PadStripped O L a n) (hO : ∀ k, k < L → O k = O' k) :
    PadStripped O' L a n := by
  obtain ⟨hle, hlead, htrail, hends⟩ := h
  refine ⟨hle, fun k hk => hO k (by omega) ▸ hlead k hk, fun k hk hkL => hO k hkL ▸ htrail k hk hkL, fun hn => ?_⟩
  rw [← hO a (by omega), ← hO (a + n - 1) (by omega)]
  exact hends hn

/-- The ends of one non-empty string left by STRIP are no pads, so they lie inside every other one. -/
theorem PadStripped.covers {O : Nat → Byte} {L a n a' n' : Nat} (h : PadStripped O L a n) (h' : PadStripped O L a' n')
    (hn : n ≠ 0) : a' ≤ a ∧ a + n ≤ a' + n' := by
  obtain ⟨hle, _, _, hends⟩ := h
  obtain ⟨_, hlead, htrail, _⟩ := h'
  obtain ⟨hfirst, hlast⟩ := hends hn
  constructor
  · by_contra hlt
    exact hfirst (hlead a (by omega))
  · by_contra hlt
    exact hlast (htrail (a + n - 1) (by omega) (by omega))

/-- STRIP leaves one string only. -/
theorem PadStripped.unique {O : Nat → Byte} {L a n a' n' : Nat} (h : PadStripped O L a n) (h' : PadStripped O L a' n') :
    n = n' ∧ (n ≠ 0 → a = a') := by
  by_cases hn : n = 0
  · by_cases hn' : n' = 0
    · exact ⟨hn.trans hn'.symm, fun hne => absurd hn hne⟩
    · have := h'.covers h hn'
      omega
  · have hcov := h.covers h' hn
    have := h'.covers h (by omega)
    omega

/-- What STRIP leaves of a string whose character `k` is `O k`. -/
theorem stripPads_reads {bs : List Byte} {O : Nat → Byte} {L : Nat} (hlen : bs.length = L)
    (hO : ∀ k, k < L → byteAt bs k = O k) :
    PadStripped O L (leadingPads bs) (stripPads bs).length ∧
      ∀ k, k < (stripPads bs).length → byteAt (stripPads bs) k = O (leadingPads bs + k) := by
  subst hlen
  obtain ⟨hle, hkept, hlead, htrail, hends⟩ := stripPads_spec bs
  have hstrip : PadStripped (byteAt bs) bs.length (leadingPads bs) (stripPads bs).length := ⟨hle, hlead, htrail, hends⟩
  exact ⟨hstrip.congr hO, fun k hk => (hkept k hk).trans (hO _ (by omega))⟩

/-- A text that is empty or neither starts nor ends with a pad is what STRIP leaves of it and its pads (R146). -/
theorem padStripped_paddedChar {s : State} (hN : 1 ≤ s.ni.toNat)
    (hends : s.srcLen.toNat = 0 ∨ (s.src.read 0 ≠ pad ∧ s.src.read (s.srcLen.toNat - 1) ≠ pad)) :
    PadStripped s.paddedChar (ceilDiv s.srcLen.toNat s.ni.toNat * s.ni.toNat) 0 s.srcLen.toNat := by
  refine ⟨(Nat.zero_add _).trans_le (le_ceilDiv_mul hN _), fun k hk => absurd hk (Nat.not_lt_zero k),
    fun k hk _ => if_neg (by omega), fun hL => ?_⟩
  rw [State.paddedChar, State.paddedChar, if_pos (by omega), if_pos (by omega), Nat.zero_add]
  exact hends.resolve_left hL

/-- STRIP of such a text with its pads is the text (R146). -/
theorem stripPads_paddedText {s : State} (hN : 1 ≤ s.ni.toNat)
    (hends : s.srcLen.toNat = 0 ∨ (s.src.read 0 ≠ pad ∧ s.src.read (s.srcLen.toNat - 1) ≠ pad)) :
    (stripPads s.paddedText).length = s.srcLen.toNat ∧
      ∀ k, k < s.srcLen.toNat → byteAt (stripPads s.paddedText) k = s.src.read k := by
  obtain ⟨hstrip, hread⟩ := stripPads_reads (paddedText_length s) fun k => byteAt_paddedText
  obtain ⟨hlen, hstart⟩ := hstrip.unique (padStripped_paddedChar hN hends)
  refine ⟨hlen, fun k hk => ?_⟩
  rw [hread k (by omega), hstart (by omega), Nat.zero_add, State.paddedChar, if_pos hk]

/-! ## The commands -/

section Commands

variable {s : State}

theorem exec_tenc (htp : s.status.tpValid = true) (hL : s.srcLen.toNat ≤ s.params.maxlen)
    (hM : ceilDiv s.srcLen.toNat s.ni.toNat * s.ni.toNat ≤ s.params.maxlen) :
    exec .tenc s = .next (s.writeResult s.transposed).complete := by
  rw [exec, execTenc, needPermutationKeys_pass _ htp, needSrcFits_pass _ hL, needPaddedFits_pass _ hM, finish_ok]

theorem byteAt_transposed (hkeys : s.KeysLatched) {i j : Nat} (hi : i < ceilDiv s.srcLen.toNat s.ni.toNat)
    (hj : j < s.ni.toNat) :
    byteAt s.transposed (s.cipherPos (ceilDiv s.srcLen.toNat s.ni.toNat) i j) =
      grid1 s.src.read s.srcLen.toNat s.ni.toNat i j :=
  byteAt_shuffled hkeys _ hi hj

theorem byteAt_untransposed (hkeys : s.KeysLatched) (hrows : s.srcLen.toNat % s.ni.toNat = 0) {k : Nat}
    (hk : k < s.srcLen.toNat) :
    byteAt s.untransposed k =
      s.src.read (s.cipherPos (s.srcLen.toNat / s.ni.toNat) (k / s.ni.toNat) (k % s.ni.toNat)) := by
  have hsize : s.srcLen.toNat / s.ni.toNat * s.ni.toNat = s.srcLen.toNat :=
    Nat.div_mul_cancel (Nat.dvd_of_mod_eq_zero hrows)
  have hcell := hk.trans_eq hsize.symm
  obtain ⟨hi, hj, _⟩ := grid_div_mod hcell
  have hpos := (cipherPos_lt hkeys hi hj).trans_eq hsize
  rw [State.untransposed, State.keysSize, State.srcBytes, unCol_unRow hkeys, byteAt_flatGrid_div_mod _ hcell,
    Memory.byteAt_readRange _ hpos, Nat.zero_add]

/-- The text with its pads is what undoing the shuffles makes of TENC's result (R146). -/
theorem unCol_unRow_transposed (hkeys : s.KeysLatched) :
    unCol (ceilDiv s.srcLen.toNat s.ni.toNat) s.ni.toNat s.column
      (unRow (ceilDiv s.srcLen.toNat s.ni.toNat) s.ni.toNat s.row s.transposed) = s.paddedText :=
  unCol_unRow_shuffled hkeys _

theorem writeResult_dstLen_of_length (s : State) {bytes : List Byte} {n : Nat} (hlen : bytes.length = n) (hn : n < 2 ^ 32) :
    (s.writeResult bytes).dstLen.toNat = n := by
  subst hlen
  exact writeResult_dstLen_toNat hn

/-- TENC's result, moved back to SRC, is untransposed to the text with its pads. -/
theorem movedResult_untransposed (hkeys : s.KeysLatched) (hword : s.transposed.length < 2 ^ 32) :
    (s.movedResult s.transposed).untransposed = s.paddedText := by
  have hN := hkeys.1
  have hlen : (s.movedResult s.transposed).srcBytes = s.transposed.length := movedResult_srcLen_toNat hword
  have hrows : s.transposed.length / s.ni.toNat = ceilDiv s.srcLen.toNat s.ni.toNat := by
    rw [s.transposed_length]
    exact Nat.mul_div_cancel _ hN
  rw [← unCol_unRow_transposed hkeys, ← hrows, State.untransposed, hlen, movedResult_src_readRange hword]
  rfl

/-- TENC, MOVE, TDEC: the decryption starts from the text with its pads (R146). -/
theorem exec_tdec_movedResult_transposed (hp : s.params.Legal) (htp : s.status.tpValid = true) (hkeys : s.KeysLatched)
    (hM : ceilDiv s.srcLen.toNat s.ni.toNat * s.ni.toNat ≤ s.params.maxlen) (nt : Bool) :
    exec (.tdec nt) (s.movedResult s.transposed) =
      .next ((s.movedResult s.transposed).writeResult (if nt then s.paddedText else stripPads s.paddedText)).complete := by
  have hlen := s.transposed_length
  have hword := lt_two_pow_of_le_maxlen hp hM
  have hsrc : (s.movedResult s.transposed).srcLen.toNat = ceilDiv s.srcLen.toNat s.ni.toNat * s.ni.toNat :=
    writeResult_dstLen_of_length s hlen hword
  have hrows : (s.movedResult s.transposed).srcLen.toNat % s.ni.toNat = 0 := by rw [hsrc, Nat.mul_mod_left]
  rw [exec_tdec (s := s.movedResult s.transposed) htp (hsrc.trans_le hM) hrows,
    movedResult_untransposed hkeys (hlen.trans_lt hword)]

/-- The bytes of DST up to DST_LEN after a result. -/
theorem readRange_dst_writeResult {bytes : List Byte} (h : bytes.length < 2 ^ 32) :
    (s.writeResult bytes).dst.readRange 0 (s.writeResult bytes).dstLen.toNat = bytes := by
  have hlen := writeResult_dstLen_toNat (s := s) h
  refine byteAt_ext (by rw [Memory.readRange_length, hlen]) fun k hk => ?_
  rw [Memory.readRange_length] at hk
  rw [Memory.byteAt_readRange _ hk, Nat.zero_add, read_dst_writeResult hk]

end Commands

end Sys2Proof.Machine

open Sys2Proof Sys2Proof.Machine

/-- Settles O16: the result's byte at a cell's cipher position is the cell of the first grid. -/
theorem tencTransposesTheText : Obligations.TencTransposesTheText := by
  intro s htp hkeys hL hM R
  obtain ⟨d, hd, hread, hfree⟩ := completed_writeResult s s.transposed_length
  refine ⟨d, by rw [exec_tenc htp hL hM, hd]; rfl, fun i j hi hj => ?_, hfree⟩
  have hpos := cipherPos_lt hkeys hi hj
  exact ⟨hpos, (hread _ hpos).trans (byteAt_transposed hkeys hi hj)⟩

/-- Settles O17: each character is read back from its cell's cipher position, and TDEC strips what TDEC.NT leaves. -/
theorem tdecRestoresTheText : Obligations.TdecRestoresTheText := by
  intro s nt htp hkeys hL hrows O
  have hlen := untransposed_length hrows
  have hO : ∀ k, k < s.srcLen.toNat → byteAt s.untransposed k = O k := fun k => byteAt_untransposed hkeys hrows
  cases nt with
  | true =>
    obtain ⟨d, hd, hread, hfree⟩ := completed_writeResult s hlen
    refine ⟨d, 0, s.srcLen.toNat, by rw [exec_tdec htp hL hrows, if_pos rfl, hd], ⟨rfl, rfl⟩, fun k hk => ?_, hfree⟩
    rw [hread k hk, hO k hk, Nat.zero_add]
  | false =>
    obtain ⟨hstrip, hkept⟩ := stripPads_reads hlen hO
    obtain ⟨d, hd, hread, hfree⟩ := completed_writeResult s (bytes := stripPads s.untransposed) rfl
    exact ⟨d, leadingPads s.untransposed, _, by rw [exec_tdec htp hL hrows, if_neg Bool.false_ne_true, hd], hstrip,
      fun k hk => (hread k hk).trans (hkept k hk), hfree⟩

/-- Settles O18: TRIMP writes what STRIP leaves of the text. -/
theorem trimpStripsThePads : Obligations.TrimpStripsThePads := by
  intro s hL
  obtain ⟨hstrip, hkept⟩ := stripPads_reads (O := s.src.read) (Memory.readRange_length s.src 0 s.srcLen.toNat)
    fun k hk => by rw [Memory.byteAt_readRange _ hk, Nat.zero_add]
  obtain ⟨d, hd, hread, hfree⟩ := completed_writeResult s (bytes := stripPads (s.src.readRange 0 s.srcLen.toNat)) rfl
  exact ⟨d, leadingPads (s.src.readRange 0 s.srcLen.toNat), _, by rw [exec_trimp hL, State.srcBytes, hd], hstrip,
    fun k hk => (hread k hk).trans (hkept k hk), hfree⟩

/-- Settles O25: the padded length is checked after the text's own length, and reported. -/
theorem tencPaddingOverflowRaisesLengthOverflow : Obligations.TencPaddingOverflowRaisesLengthOverflow := by
  intro s htp hL hM
  rw [exec, execTenc, needPermutationKeys_pass _ htp, needSrcFits_pass _ hL, needPaddedFits_stop _ hM, finish_fails,
    raise_eq_afterError]
  rfl

/-- Settles O52: TDEC works on the text with its pads, of which STRIP leaves the text. -/
theorem transposedTextIsRecovered : Obligations.TransposedTextIsRecovered := by
  refine ⟨fun s R G hkeys => unCol_unRow_shuffled hkeys G, ?_⟩
  intro s t u v nt hp htp hkeys hL hM ht hu hv L M
  rw [exec_tenc htp hL hM, Host.Outcome.next.injEq] at ht
  subst ht
  rw [exec_move_writeResult, Host.Outcome.next.injEq] at hu
  subst hu
  rw [exec_tdec_movedResult_transposed hp htp hkeys hM, Host.Outcome.next.injEq] at hv
  subst hv
  refine ⟨?_, ?_⟩
  · rintro rfl
    have hdst : ((s.movedResult s.transposed).writeResult s.paddedText).dstLen.toNat = M :=
      writeResult_dstLen_of_length _ (paddedText_length s) (lt_two_pow_of_le_maxlen hp hM)
    exact ⟨hdst, fun k hk => (read_dst_writeResult (hk.trans_eq hdst.symm)).trans (byteAt_paddedText hk)⟩
  · rintro rfl hends
    obtain ⟨hkept, hread⟩ := stripPads_paddedText hkeys.1 hends
    have hdst : ((s.movedResult s.transposed).writeResult (stripPads s.paddedText)).dstLen.toNat = L :=
      writeResult_dstLen_of_length _ hkept s.srcLen.isLt
    exact ⟨BitVec.eq_of_toNat_eq hdst, fun k hk =>
      (read_dst_writeResult (hk.trans_eq hdst.symm)).trans (hread k hk)⟩

/-- Settles O53: DST_LEN is the number of bytes of the result, which fits into a word. -/
theorem transpositionLengths : Obligations.TranspositionLengths := by
  intro s t hp _ ht
  refine ⟨fun h => ?_, fun h _ => ?_, fun h _ => ?_⟩
  · obtain ⟨_, ⟨_, _, hM, rfl⟩, rfl⟩ := exec_succeeded h ht
    exact writeResult_dstLen_of_length s s.transposed_length (lt_two_pow_of_le_maxlen hp hM)
  · obtain ⟨_, ⟨_, _, hrows, rfl⟩, rfl⟩ := exec_succeeded h ht
    exact BitVec.eq_of_toNat_eq (writeResult_dstLen_of_length s (untransposed_length hrows) s.srcLen.isLt)
  · obtain ⟨_, ⟨_, _, hrows, rfl⟩, rfl⟩ := exec_succeeded h ht
    have hle := (stripPads_length_le s.untransposed).trans_eq (untransposed_length hrows)
    exact (writeResult_dstLen_of_length s rfl (hle.trans_lt s.srcLen.isLt)).trans_le hle

/-- Settles O54: undoing the shuffles only moves characters, and turns TENC's result into the text and its pads. -/
theorem transpositionOnlyMovesCharacters : Obligations.TranspositionOnlyMovesCharacters := by
  intro s t hp hkeys _ ht
  refine ⟨fun h => ?_, fun h => ?_⟩
  · obtain ⟨_, ⟨_, _, hM, rfl⟩, rfl⟩ := exec_succeeded h ht
    have hlen := s.transposed_length
    have hword := lt_two_pow_of_le_maxlen hp (hlen.trans_le hM)
    rw [State.complete_dst, State.complete_dstLen, readRange_dst_writeResult hword, writeResult_dstLen_toNat hword, hlen,
      State.rowCount, State.keysSize, State.srcBytes, ← paddedText_eq_append hkeys.1, ← unCol_unRow_transposed hkeys]
    exact (unCol_unRow_perm hkeys hlen).symm
  · obtain ⟨_, ⟨_, _, hrows, rfl⟩, rfl⟩ := exec_succeeded h ht
    have hlen := untransposed_length hrows
    rw [State.complete_dst, State.complete_dstLen, if_pos rfl, readRange_dst_writeResult (hlen.trans_lt s.srcLen.isLt)]
    refine unCol_unRow_perm hkeys ?_
    rw [Memory.readRange_length]
    exact (Nat.div_mul_cancel (Nat.dvd_of_mod_eq_zero hrows)).symm

end

section
/-! PROOFS. Buffer and control commands (44_buffer_and_control.md): NOP only completes, and MOVE copies the result to SRC
(O19). -/

namespace Sys2Proof.Machine

/-- SRC after MOVE holds the result below DST_LEN and its own bytes above (R161). -/
theorem State.moveResult_src_read (s : State) (k : Nat) :
    s.moveResult.src.read k = if k < s.dstLen.toNat then s.dst.read k else s.src.read k := by
  rw [State.moveResult_src, Memory.read_writeRange, Memory.readRange_length, Nat.zero_add]
  by_cases hk : k < s.dstLen.toNat
  · rw [if_pos ⟨k.zero_le, hk⟩, if_pos hk, Nat.sub_zero, Memory.byteAt_readRange _ hk, Nat.zero_add]
  · rw [if_neg fun h => hk h.2, if_neg hk]

end Sys2Proof.Machine

open Sys2Proof Sys2Proof.Machine

/-- Settles O19: no check stands before either command, and SRC after MOVE is that of `State.moveResult`. -/
theorem nopAndMoveComplete : Obligations.NopAndMoveComplete := by
  refine fun s => ⟨?_, s.moveResult.src, ?_, s.moveResult_src_read⟩
  · rw [exec_nop, complete_eq_afterSuccess]
  · rw [exec_move, complete_eq_afterSuccess, State.moveResult]

end

section
/-! PROOFS. Issue and completion (60_exceptions.md): a write to CMD (O5), the engine's turn and the command it runs (O6 to
O8), what a failing command leaves (O26), and the model's history (O36). -/

namespace Sys2Proof.Machine

variable {s t : State} {i : Instr}

/-! ## Issue -/

theorem targetAt_cmd (p : Params) : targetAt p 0x004 = .cmd := rfl

theorem withFetchWord_toNat (s : State) (c : Word) : s.withFetchWord 32 c.toNat = s.issueNow c := by
  rw [State.withFetchWord, Nat.mod_eq_of_lt c.isLt, BitVec.ofNat_toNat, BitVec.setWidth_eq]

/-- A placed word takes the turn put before the schedule, so the schedule is left as it was (R200; log 1). -/
theorem popTurn_issueNow (s : State) (c : Word) : (s.issueNow c).popTurn = s.issue c := rfl

/-! ## The engine's turn -/

/-- A pending command's engine moves when it is first in the schedule, or when there is none (R236; log 2). -/
theorem mover_eq_engine (hb : s.status.busy = true) (h : s.sched = [] ∨ ∃ rest, s.sched = .engine :: rest) :
    s.mover = .engine := by
  rcases h with h | ⟨rest, h⟩
  · simp [State.mover, h, hb]
  · simp [State.mover, h]

theorem step_engine_pending (hm : s.mover = .engine) (hb : s.status.busy = true) :
    step s = s.popTurn.completeStep := by
  rw [step, hm, State.turn, State.engineTurn, State.popTurn_status, if_pos hb]

theorem step_engine_idle (hm : s.mover = .engine) (hb : s.status.busy = false) : step s = .next s.popTurn := by
  rw [step, hm, State.turn, State.engineTurn, State.popTurn_status, if_neg (by simp [hb])]

theorem completeStep_decoded (h : decode s.cmd = .ok i) : s.completeStep = exec i s := by
  rw [State.completeStep, h]

/-! ## Completion -/

/-- Every complete step clears BUSY, sets DONE, keeps CMD, and puts the ERRCODE it leaves before the history
(R201, R207; log 11). -/
theorem completeStep_completes (h : s.completeStep = .next t) :
    t.status.busy = false ∧ t.status.done = true ∧ t.cmd = s.cmd ∧ t.history = t.status.errcode :: s.history := by
  rcases completeStep_cases h with ⟨i, r, _, hr, rfl⟩ | ⟨x, rfl⟩
  · obtain ⟨_, _, _, _, hcmd, hhistory, _⟩ := hr.keeps
    exact ⟨rfl, rfl, hcmd, congrArg (r.status.errcode :: ·) hhistory⟩
  · exact ⟨rfl, rfl, rfl, rfl⟩

/-- A complete step that sets ERR has raised an error in the state at issue (R201, R203). -/
theorem completeStep_failed (he : s.status.err = false) (h : s.completeStep = .next t) (ht : t.status.err = true) :
    ∃ x, t = s.raise x := by
  rcases completeStep_cases h with ⟨i, r, _, hr, rfl⟩ | hx
  · obtain ⟨herr, _⟩ := hr.keeps
    have hclear : r.complete.status.err = false := herr.trans he
    exact absurd (hclear.symm.trans ht) (by decide)
  · exact hx

end Sys2Proof.Machine

open Sys2Proof Sys2Proof.Machine

/-- Settles O8: an engine's turn is the complete step of a pending word, and else takes only itself off the schedule. -/
theorem engineCompletesExactlyWhenBusy : Obligations.EngineCompletesExactlyWhenBusy := by
  refine fun s => ⟨fun hb hsched => ?_, fun hb rest hsched => ?_⟩
  · obtain ⟨t, ht⟩ := completeStep_next s.popTurn
    obtain ⟨hidle, hdone, hcmd, _⟩ := completeStep_completes ht
    exact ⟨t, (step_engine_pending (mover_eq_engine hb hsched) hb).trans ht, hidle, hdone, hcmd⟩
  · rw [step_engine_idle (by rw [State.mover, hsched]) hb, State.popTurn, hsched, List.tail_cons]

/-- Settles O26: a complete step that sets ERR is a raise, which writes STATUS, ERRINFO and the history only. -/
theorem failingCommandsWriteNoResult : Obligations.FailingCommandsWriteNoResult := by
  intro s t he h ht
  obtain ⟨x, rfl⟩ := completeStep_failed he h ht
  rfl

/-- Settles O36, by what a step can do: of its cases only the complete step touches the history. -/
theorem historyRecordsEveryCompletion : Obligations.HistoryRecordsEveryCompletion := by
  intro s t h
  rcases step_cases h with ⟨hm, hhost⟩ | ⟨hm, hb, hengine⟩ | ⟨hm, hb, rfl⟩ | ⟨hm, rfl⟩
  · obtain ⟨hkept, _⟩ := hostTurn_keeps hhost
    exact ⟨fun ⟨he, _⟩ => absurd (hm.symm.trans he) (by decide), fun _ => hkept.history⟩
  · obtain ⟨_, _, _, hhistory⟩ := completeStep_completes hengine
    exact ⟨fun _ => hhistory, fun hn => absurd ⟨hm, hb⟩ hn⟩
  · exact ⟨fun ⟨_, hbusy⟩ => absurd (hb.symm.trans hbusy) (by decide), fun _ => rfl⟩
  · exact ⟨fun ⟨he, _⟩ => absurd (hm.symm.trans he) (by decide), fun _ => rfl⟩

/-- Settles O5: CMD stands at offset 0x004, and a store there issues the word. -/
theorem cmdWriteIssuesOrIsLost : Obligations.CmdWriteIssuesOrIsLost := by
  refine fun s c => ⟨fun hb => ?_, fun hb => busWrite_busy hb _ c⟩
  rw [busWrite_idle hb, targetAt_cmd]
  rfl

/-- Settles O6: the engine's turn is the complete step, which is exec of the decoded command. -/
theorem engineStepRunsDecodedCommand : Obligations.EngineStepRunsDecodedCommand :=
  fun _ _ hsched hb hi => (step_engine_pending (mover_eq_engine hb hsched) hb).trans (completeStep_decoded hi)

/-- Settles O7: the placed word is pending with the engine's turn first, and it decodes to its command. -/
theorem placedCommandRunsNext : Obligations.PlacedCommandRunsNext := by
  intro s i hi
  have hdecode : decode (s.issue (encode i)).cmd = .ok i := decode_encode hi
  calc step (s.withFetchWord 32 (encode i).toNat)
      = step (s.issueNow (encode i)) := by rw [withFetchWord_toNat]
    _ = (s.issueNow (encode i)).popTurn.completeStep := step_engine_pending rfl rfl
    _ = exec i (s.issue (encode i)) := by rw [popTurn_issueNow, completeStep_decoded hdecode]

end
